-- ==== Sys2Proof/Word.lean ====
section
/-! DEFINITION. The word types of the block: registers are 32 bits wide (00_scope.md R8), BUF holds 8-bit bytes
(10_state.md R36), and a register offset lies in 0x00 to 0xFF (20_memory.md R50). -/

namespace Sys2Proof

/-- A host-visible register's contents (00_scope.md R8, 10_state.md R22). Comparisons of words are unsigned (R10). -/
abbrev Word := BitVec 32

/-- One byte of BUF (10_state.md R36). -/
abbrev Byte := BitVec 8

/-- A byte offset of the register space, 0x00 to 0xFF (20_memory.md R50): every value of the type lies in the space. -/
abbrev RegOffset := BitVec 8

end Sys2Proof
end

