-- ==== Sys2Proof/Syntax.lean ====
section
/-! DEFINITION. The command words of the block as syntax: one constructor for each row of spec/opcode_table.json
(30_encoding.md R70, R72, R73). -/

namespace Sys2Proof

/-- A command (30_encoding.md R70). `strict` is bit 3 and `present` is bit 4 of the command word, operand fields of
every row (R71, R72). Bits 31:5 are ignored and stored nowhere (R73), so no constructor carries them. -/
inductive Instr
  /-- VDEC, GO = 1, OP = 00: variable-byte-integer decode (R100). -/
  | vdec (strict present : Bool)
  /-- SDEC, GO = 1, OP = 01: length-prefixed string decode (R130). -/
  | sdec (strict present : Bool)
  /-- RSV2, GO = 1, OP = 10: reserved, completes with RESERVED_OP (R183). -/
  | rsv2 (strict present : Bool)
  /-- RSV3, GO = 1, OP = 11: reserved, completes with RESERVED_OP (R183). -/
  | rsv3 (strict present : Bool)
  /-- SETCFG, GO = 0: stores OP, STRICT and PRESENT and starts nothing (R24, R73). `op` is the number written in
  `cfg op, s, p` (R82); a well-formed one fits the 2-bit field (DESIGN CHOICE, log 12, safe). -/
  | setcfg (op : Nat) (strict present : Bool)
deriving DecidableEq, Repr

end Sys2Proof
end

