-- ==== Sys2Proof/WellFormed.lean ====
section
/-! DEFINITION. Which commands can be encoded: every one but a SETCFG whose OP number does not fit its 2-bit field
(30_encoding.md R70, R73). -/

namespace Sys2Proof

/-- The one check: OP of SETCFG is a 2-bit field, legal with any value, a reserved one too (30_encoding.md R73). -/
def Instr.wellFormed : Instr → Bool
  | .vdec _ _ => true
  | .sdec _ _ => true
  | .rsv2 _ _ => true
  | .rsv3 _ _ => true
  | .setcfg op _ _ => decide (op < 4)

/-- The command has an encoding. -/
abbrev Instr.WellFormed (i : Instr) : Prop := i.wellFormed = true

end Sys2Proof
end

