-- ==== Sys2Proof/Decode.lean ====
section
/-! DEFINITION. Reading a command from a command word and writing one back, from the tables of 30_encoding.md
R70 and R72 and from spec/opcode_table.json. -/

namespace Sys2Proof

/-- Bit 0 of the command word, GO (30_encoding.md R70). -/
def cmdGo (w : Word) : Bool := w.getLsbD 0

/-- Bits 2:1 of the command word, OP (30_encoding.md R70). -/
def cmdOp (w : Word) : BitVec 2 := w.extractLsb' 1 2

/-- Bit 3 of the command word, STRICT (30_encoding.md R70). -/
def cmdStrict (w : Word) : Bool := w.getLsbD 3

/-- Bit 4 of the command word, PRESENT (30_encoding.md R70). -/
def cmdPresent (w : Word) : Bool := w.getLsbD 4

/-- The command a word stands for (30_encoding.md R72, R73). Every word has one: GO = 0 is SETCFG with any OP, and
with GO = 1 each of the four OP values is a row. Bits 31:5 are ignored (R73). -/
def decodeWord (w : Word) : Instr :=
  if cmdGo w then
    match (cmdOp w).toNat with
    | 0 => .vdec (cmdStrict w) (cmdPresent w)
    | 1 => .sdec (cmdStrict w) (cmdPresent w)
    | 2 => .rsv2 (cmdStrict w) (cmdPresent w)
    | _ => .rsv3 (cmdStrict w) (cmdPresent w)
  else .setcfg (cmdOp w).toNat (cmdStrict w) (cmdPresent w)

/-- Why bits are no command. -/
inductive DecodeReject
  /-- More bits than the one 32-bit word a register write moves (30_encoding.md R70, 20_memory.md R50). Safe. -/
  | widerThanOneWord
deriving DecidableEq, Repr

/-- The command in any pattern of bits, bit 0 the least significant: a command is ONE 32-bit word (30_encoding.md
R70), moved whole, so no byte order enters (20_memory.md R56; log 17). -/
def decode (bits : Nat) : Except DecodeReject Instr :=
  if bits < 2 ^ 32 then .ok (decodeWord (BitVec.ofNat 32 bits)) else .error .widerThanOneWord

/-- The command the decoder reads from `nbits` bits of an opcode-table row, every bit above them 0. -/
def decodeTableWord (nbits w : Nat) : Option Instr := (decode (w % 2 ^ nbits)).toOption

/-- The word with the given fields, bits 31:5 zero (30_encoding.md R70, R82). -/
def commandWord (go : Bool) (op : Nat) (strict present : Bool) : Word :=
  BitVec.ofNat 32 (go.toNat + 2 * op + 8 * strict.toNat + 16 * present.toNat)

/-- The command word of a command (30_encoding.md R70, R72, R82). -/
def encode : Instr → Word
  | .vdec s p => commandWord true 0 s p
  | .sdec s p => commandWord true 1 s p
  | .rsv2 s p => commandWord true 2 s p
  | .rsv3 s p => commandWord true 3 s p
  | .setcfg op s p => commandWord false op s p

/-- A row of spec/opcode_table.json: a word is of the row when it agrees with `pattern` on the bits of `mask`. -/
structure OpcodeRow where
  mnemonic : String
  pattern : Word
  mask : Word
deriving DecidableEq, Repr

/-- The word is of the row. -/
def OpcodeRow.covers (r : OpcodeRow) (w : Word) : Bool := w &&& r.mask == r.pattern

/-- The rows of spec/opcode_table.json, with its match and mask values (30_encoding.md R72). -/
def opcodeRows : List OpcodeRow :=
  [⟨"VDEC", 0x00000001, 0x00000007⟩, ⟨"SDEC", 0x00000003, 0x00000007⟩, ⟨"RSV2", 0x00000005, 0x00000007⟩,
   ⟨"RSV3", 0x00000007, 0x00000007⟩, ⟨"SETCFG", 0x00000000, 0x00000001⟩]

/-- The row a command belongs to, by its mnemonic in spec/opcode_table.json. -/
def Instr.mnemonic : Instr → String
  | .vdec _ _ => "VDEC"
  | .sdec _ _ => "SDEC"
  | .rsv2 _ _ => "RSV2"
  | .rsv3 _ _ => "RSV3"
  | .setcfg _ _ _ => "SETCFG"

/-- The command starts an operation: its GO bit is 1 (30_encoding.md R70). -/
def Instr.isGo : Instr → Bool
  | .vdec _ _ => true
  | .sdec _ _ => true
  | .rsv2 _ _ => true
  | .rsv3 _ _ => true
  | .setcfg _ _ _ => false

end Sys2Proof
end

