-- ==== Sys2Proof/Config.lean ====
section
/-! DEFINITION. What is fixed for one built block: its parameters (00_scope.md R6), the constants the source fixes
(R7), and the two base addresses no rule reads (20_memory.md R50, R59). -/

namespace Sys2Proof

/-- The parameters of 00_scope.md R6. Software reads them in CFG and BUFSZ (10_state.md R32, R33), so State carries
them; no step changes them (DESIGN CHOICE, log 3, safe). -/
structure Params where
  /-- `BUF_SIZE`: the number of bytes of BUF. -/
  bufSize : Nat
  /-- `UTF8_VALIDATE`: whether SDEC checks that the string bytes are well-formed UTF-8. -/
  utf8Validate : Bool
  /-- `STR_TRAILING_REJECT`: whether SDEC rejects bytes after the declared string. -/
  strTrailingReject : Bool
deriving DecidableEq, Repr

/-- The legal values of `BUF_SIZE`, 1 to 2^32 - 1 (00_scope.md R6). -/
abbrev Params.Legal (p : Params) : Prop := 1 ≤ p.bufSize ∧ p.bufSize < 2 ^ 32

/-- The reference configuration: `BUF_SIZE` 65537 and `STR_TRAILING_REJECT` false (00_scope.md R6). R6 names no
reference value of `UTF8_VALIDATE`; false is the start state of 95_test_vectors.md section 6
(DESIGN CHOICE, log 3, unsafe for a claim about State.reset alone). -/
def Params.reference : Params := ⟨65537, false, false⟩

/-- The longest encoded varint, in bytes (00_scope.md R7). -/
def Config.maxVarintBytes : Nat := 4

/-- The largest decodable varint value, 2^28 - 1 (00_scope.md R7). -/
def Config.maxVarintValue : Nat := 268435455

/-- The largest string length, in bytes (00_scope.md R7). -/
def Config.maxStringBytes : Nat := 65535

/-- `REG_BASE`, where the platform puts the register space (20_memory.md R50, R59): open, no rule reads it
(DESIGN CHOICE, log 10, safe). -/
opaque Config.regBase : Nat

/-- `BUF_BASE`, where the platform puts BUF (20_memory.md R50, R59): open, no rule reads it
(DESIGN CHOICE, log 10, safe). -/
opaque Config.bufBase : Nat

/-- The host's address of a register offset (20_memory.md R50). -/
def Config.regAddress (off : RegOffset) : Nat := Config.regBase + off.toNat

/-- The host's address of a BUF index (20_memory.md R50). -/
def Config.bufAddress (i : Nat) : Nat := Config.bufBase + i

end Sys2Proof
end

