-- ==== Sys2Proof/Machine/State.lean ====
section
/-! DEFINITION. The state of the block, its host and its platform: every register of 10_state.md, the buffer
memory, the internal state of R37, and the model's own record of what the outside is about to do. -/

namespace Sys2Proof.Machine

/-- CTRL as it is held (10_state.md R23). GO is write-only and bits 31:5 read 0, so neither is stored. -/
structure Ctrl where
  op : BitVec 2
  strict : Bool
  present : Bool
deriving DecidableEq, Repr

/-- STATUS.ERR (10_state.md R27, 60_exceptions.md R180). Code 11 is never produced and has no constructor. -/
inductive ErrKind
  | none
  | invalidArgument
  | malformedInput
deriving DecidableEq, Repr

/-- STATUS.SENT, the sentinel a lenient operation reports (10_state.md R27). -/
inductive Sentinel
  | none
  | minusOne
  | emptyString
  | null
deriving DecidableEq, Repr

/-- STATUS.REASON (60_exceptions.md R181). Codes 11 to 15 are never produced and have no constructor. -/
inductive Reason
  | none
  | absentBuffer
  | shortBuffer
  | truncated
  | fastPathTrailing
  | trailingBytes
  | oversize
  | stringTrailing
  | badUtf8
  | reservedOp
  | lenRange
deriving DecidableEq, Repr

/-- The STATUS fields (10_state.md R27); bits 7:6 and 31:12 read 0 and are not stored. -/
structure Status where
  busy : Bool
  done : Bool
  err : ErrKind
  sent : Sentinel
  reason : Reason
deriving DecidableEq, Repr

/-- The internal state of an operation: byte index, digit count, accumulated value (10_state.md R37, R109). -/
structure Walk where
  i : Word
  k : Nat
  acc : Word
deriving DecidableEq, Repr

/-- What one completion step writes besides BUSY and DONE: a row of the table of 60_exceptions.md R184. SLEN is held
in 16 bits, since its bits 31:16 read 0 (10_state.md R30). -/
structure Completion where
  err : ErrKind
  sent : Sentinel
  reason : Reason
  value : Word
  slen : BitVec 16
  soff : Word
deriving DecidableEq, Repr

/-- BUF: the written bytes as (index, byte) pairs, indices strictly rising (10_state.md R36). An index not listed
holds no value (70_reset_and_hazards.md R201; log 4). -/
abbrev Memory := List Host.Cell

/-- A transaction of the host (20_memory.md R51, 30_encoding.md R81), and the `poll` loop of R82 (log 8). -/
inductive HostOp
  /-- `wr REG, imm32`: HostWriteReg. -/
  | wr (off : RegOffset) (w : Word)
  /-- `rd REG`: HostReadReg; the word read is noted. -/
  | rd (off : RegOffset)
  /-- `wb i, b`: MemWrite(BUF, i, 1, b). -/
  | wb (i : Nat) (b : Byte)
  /-- `rb i`: HostReadBuf; the byte read is noted. -/
  | rb (i : Nat)
  /-- `poll`: read STATUS, and again at a later turn of the host while DONE is 0. -/
  | poll
deriving DecidableEq, Repr

/-- What a host read returned (30_encoding.md R81: "the program notes the word read"). -/
inductive HostRead
  | reg (off : RegOffset) (w : Word)
  | buf (i : Nat) (b : Byte)
deriving DecidableEq, Repr

/-- Who takes a step (10_state.md R20, 70_reset_and_hazards.md R200, R209; log 2). -/
inductive Turn
  /-- The host performs its next transaction. -/
  | host
  /-- The block takes its completion step, enabled only while BUSY = 1. -/
  | block
  /-- The platform asserts reset. -/
  | reset
deriving DecidableEq, Repr

/-- The machine. The fields from `pending` on are the model's own (log 1, log 2, log 7). -/
structure State where
  /-- CTRL (10_state.md R23). -/
  ctrl : Ctrl
  /-- LEN (10_state.md R25). -/
  len : Word
  /-- OFFSET (10_state.md R26). -/
  offset : Word
  /-- STATUS (10_state.md R27). -/
  status : Status
  /-- VALUE (10_state.md R29). -/
  value : Word
  /-- SLEN, bits 15:0 (10_state.md R30). -/
  slen : BitVec 16
  /-- SOFF (10_state.md R31). -/
  soff : Word
  /-- What CFG and BUFSZ read (10_state.md R32, R33). -/
  params : Params
  /-- BUF (10_state.md R36). -/
  buf : Memory
  /-- `i`, `k` and `acc`, only while BUSY = 1 (10_state.md R37; log 5). -/
  walk : Option Walk
  /-- The host's coming transactions, the next one first (log 1). -/
  pending : List HostOp
  /-- Who takes the coming steps, the next one first (log 2). -/
  turns : List Turn
  /-- What the host's reads returned, the newest first (log 7). -/
  noted : List HostRead
deriving DecidableEq, Repr

/-- What stops a run: a read of a BUF byte not written since reset, to which the spec gives no meaning
(70_reset_and_hazards.md R201, 20_memory.md R55). -/
inductive Fault
  /-- Raised by the block's MemRead during VDEC or SDEC. Safe: no claim can rest on the byte. -/
  | blockReadUnwritten (i : Nat)
  /-- Raised by the host's HostReadBuf. Safe: no claim can rest on the byte. -/
  | hostReadUnwritten (i : Nat)
deriving DecidableEq, Repr

/-- What has no meaning in the model. -/
inductive Refusal
  /-- Raised by exec for a command without a meaning yet; no arm of exec uses it now. Safe. -/
  | notModelled (mnemonic : String)
deriving DecidableEq, Repr

/-- CTRL after reset (10_state.md R23, R39): VDEC, lenient, buffer absent. -/
def Ctrl.reset : Ctrl := ⟨0, false, false⟩

/-- STATUS after reset: every field 0 (10_state.md R39). -/
def Status.reset : Status := ⟨false, false, .none, .none, .none⟩

/-- A block with the given parameters right after reset (10_state.md R39, 70_reset_and_hazards.md R200, R201), with
nothing pending, no turn laid down and nothing noted (DESIGN CHOICE, log 1, log 2, log 7, safe). -/
def State.resetWith (p : Params) : State where
  ctrl := Ctrl.reset
  len := 0
  offset := 0
  status := Status.reset
  value := 0
  slen := 0
  soff := 0
  params := p
  buf := []
  walk := none
  pending := []
  turns := []
  noted := []

/-- The machine right after reset, in the reference configuration (log 3). -/
def State.reset : State := State.resetWith Params.reference

end Sys2Proof.Machine
end

