-- ==== Sys2Proof/Machine/Flags.lean ====
section
/-! DEFINITION. The STATUS fields, the block's only flags (10_state.md R27, R38): their codes, the STATUS word, the
three transitions of R28, and what each outcome reports (60_exceptions.md R180, R181, R184). -/

namespace Sys2Proof.Machine

/-- The 2-bit code of ERR (10_state.md R27, 60_exceptions.md R180). -/
def ErrKind.code : ErrKind → Nat
  | .none => 0
  | .invalidArgument => 1
  | .malformedInput => 2

/-- The 2-bit code of SENT (10_state.md R27). -/
def Sentinel.code : Sentinel → Nat
  | .none => 0
  | .minusOne => 1
  | .emptyString => 2
  | .null => 3

/-- The 4-bit code of REASON (60_exceptions.md R181). -/
def Reason.code : Reason → Nat
  | .none => 0
  | .absentBuffer => 1
  | .shortBuffer => 2
  | .truncated => 3
  | .fastPathTrailing => 4
  | .trailingBytes => 5
  | .oversize => 6
  | .stringTrailing => 7
  | .badUtf8 => 8
  | .reservedOp => 9
  | .lenRange => 10

/-- The error kind of a reason (60_exceptions.md R181, column "kind"). -/
def Reason.kind : Reason → ErrKind
  | .none => .none
  | .absentBuffer => .invalidArgument
  | .shortBuffer => .invalidArgument
  | .truncated => .malformedInput
  | .fastPathTrailing => .malformedInput
  | .trailingBytes => .malformedInput
  | .oversize => .malformedInput
  | .stringTrailing => .malformedInput
  | .badUtf8 => .malformedInput
  | .reservedOp => .invalidArgument
  | .lenRange => .invalidArgument

/-- The STATUS word a host reads (10_state.md R27): BUSY bit 0, DONE bit 1, ERR bits 3:2, SENT bits 5:4, REASON bits
11:8, every other bit 0. -/
def Status.word (st : Status) : Word :=
  BitVec.ofNat 32
    (st.busy.toNat + 2 * st.done.toNat + 4 * st.err.code + 16 * st.sent.code + 256 * st.reason.code)

/-- The CTRL word a host reads: `27'b0, PRESENT, STRICT, OP, 1'b0` (10_state.md R24). -/
def Ctrl.word (c : Ctrl) : Word := commandWord false c.op.toNat c.strict c.present

/-- The CFG word a host reads (10_state.md R32). -/
def cfgWord (p : Params) : Word :=
  BitVec.ofNat 32 (p.utf8Validate.toNat + 2 * p.strTrailingReject.toNat)

/-- The BUFSZ word a host reads (10_state.md R33). -/
def bufszWord (p : Params) : Word := BitVec.ofNat 32 p.bufSize

/-- An accepted GO: BUSY is 1, DONE is 0, the other fields keep their values (10_state.md R28). -/
def Status.started (st : Status) : Status := { st with busy := true, done := false }

/-- Completion: BUSY is 0, DONE is 1, and ERR, SENT and REASON tell the outcome (10_state.md R28). -/
def Completion.status (c : Completion) : Status := ⟨false, true, c.err, c.sent, c.reason⟩

/-- `finish_v(v)`, VDEC success (60_exceptions.md R184). -/
def finishV (v : Word) : Completion := ⟨.none, .none, .none, v, 0, 0⟩

/-- `finish_s(n)`, SDEC success (60_exceptions.md R184). -/
def finishS (n : BitVec 16) : Completion := ⟨.none, .none, .none, 0, n, 2⟩

/-- `fail_pre(r)`: INVALID_ARGUMENT in either mode, no sentinel (60_exceptions.md R183, R184). -/
def failPre (r : Reason) : Completion := ⟨.invalidArgument, .none, r, 0, 0, 0⟩

/-- `raise K(r)` with STRICT = 1, VDEC or SDEC (60_exceptions.md R184). -/
def raiseStrict (r : Reason) : Completion := ⟨r.kind, .none, r, 0, 0, 0⟩

/-- `raise K(r)` of VDEC (60_exceptions.md R184, R185): strict reports the kind, lenient the sentinel -1. -/
def raiseV (strict : Bool) (r : Reason) : Completion :=
  if strict then raiseStrict r else ⟨.none, .minusOne, r, 0xFFFFFFFF, 0, 0⟩

/-- The sentinel of a lenient SDEC error (60_exceptions.md R184, R185): the empty string for an absent buffer, null
for every other. -/
def stringSentinel : Reason → Sentinel
  | .absentBuffer => .emptyString
  | _ => .null

/-- `raise K(r)` of SDEC (60_exceptions.md R184, R185). -/
def raiseS (strict : Bool) (r : Reason) : Completion :=
  if strict then raiseStrict r else ⟨.none, stringSentinel r, r, 0, 0, 0⟩

/-- How VDEC ends: with an error or with a value (60_exceptions.md R184). -/
def vdecCompletion (strict : Bool) : Except Reason Word → Completion
  | .error r => raiseV strict r
  | .ok v => finishV v

/-- How SDEC ends: with an error or with a string length (60_exceptions.md R184). -/
def sdecCompletion (strict : Bool) : Except Reason (BitVec 16) → Completion
  | .error r => raiseS strict r
  | .ok n => finishS n

end Sys2Proof.Machine
end

