-- ==== Sys2Proof/Machine/Ops.lean ====
section
/-! DEFINITION. The operations every instruction and every host transaction is made of: BUF, the register space,
the CTRL write of 10_state.md R24, the ONE completion write of 60_exceptions.md R184 that stands where another
machine takes an exception (R187; there is no return, R188), and reset. -/

namespace Sys2Proof.Machine

/-! ### BUF -/

/-- The canonical form of BUF: indices strictly rising, so each is listed at most once and equal buffers are equal
lists. -/
def Memory.wf : Memory → Bool
  | [] => true
  | [_] => true
  | a :: b :: rest => decide (a.1 < b.1) && Memory.wf (b :: rest)

/-- Every listed index is one of BUF (10_state.md R36). -/
def Memory.within (m : Memory) (size : Nat) : Bool := m.all fun c => decide (c.1 < size)

/-- The byte at an index, none where nothing was written since reset (70_reset_and_hazards.md R201). -/
def Memory.read : Memory → Nat → Option Byte
  | [], _ => none
  | (j, b) :: rest, i => if i = j then some b else Memory.read rest i

/-- The buffer with one byte written, in canonical form. -/
def Memory.write : Memory → Nat → Byte → Memory
  | [], i, b => [(i, b)]
  | (j, c) :: rest, i, b =>
    if i < j then (i, b) :: (j, c) :: rest
    else if i = j then (i, b) :: rest
    else (j, c) :: Memory.write rest i b

/-- The buffer with a sequence of bytes written from an index on (30_encoding.md R82 `wbs`, R163 "Loading"). -/
def Memory.writeAll : Memory → Nat → List Byte → Memory
  | m, _, [] => m
  | m, i, b :: bs => Memory.writeAll (Memory.write m i b) (i + 1) bs

/-- The block's one memory access, `MemRead(BUF, i, 1)` (20_memory.md R51, R54). A byte never written faults
(70_reset_and_hazards.md R201). -/
def State.blockRead (s : State) (i : Nat) : Except Fault Byte :=
  match s.buf.read i with
  | some b => .ok b
  | none => .error (.blockReadUnwritten i)

/-- `HostReadBuf(i)`: 0 outside BUF (20_memory.md R53); a byte never written faults (70_reset_and_hazards.md R201). -/
def State.hostReadBuf (s : State) (i : Nat) : Except Fault Byte :=
  if i < s.params.bufSize then
    match s.buf.read i with
    | some b => .ok b
    | none => .error (.hostReadUnwritten i)
  else .ok 0

/-- `MemWrite(BUF, i, 1, b)`: dropped while BUSY = 1 and outside BUF (20_memory.md R52). -/
def State.hostWriteBuf (s : State) (i : Nat) (b : Byte) : State :=
  if s.status.busy then s
  else if s.params.bufSize ≤ i then s
  else { s with buf := s.buf.write i b }

/-! ### The internal state of an operation -/

/-- `ReadDigit` at the start offset, before any byte is read (40_varint_decode.md R109). -/
def Walk.start (offset : Word) : Walk := ⟨offset, 0, 0⟩

/-! ### CTRL -/

/-- Store OP, STRICT and PRESENT (10_state.md R24). -/
def State.storeCommand (s : State) (op : BitVec 2) (strict present : Bool) : State :=
  { s with ctrl := ⟨op, strict, present⟩ }

/-- Start the operation CTRL selects (10_state.md R24, R28): BUSY is 1, DONE is 0, the results keep their values.
The internal state comes into being (R37; log 5). -/
def State.startOperation (s : State) : State :=
  { s with status := s.status.started, walk := some (Walk.start s.offset) }

/-- A host write of a word to CTRL (10_state.md R24): dropped while BUSY = 1; else the fields are stored, and with
GO = 1 the operation starts with the new values. Bits 31:5 are ignored. -/
def State.writeCtrl (s : State) (w : Word) : State :=
  if s.status.busy then s
  else
    let s' := s.storeCommand (cmdOp w) (cmdStrict w) (cmdPresent w)
    if cmdGo w then s'.startOperation else s'

/-- The command the block has been started with: CTRL's fields with GO = 1 (10_state.md R24, 20_memory.md R64). -/
def State.latchedCommand (s : State) : Word := commandWord true s.ctrl.op.toNat s.ctrl.strict s.ctrl.present

/-! ### The register space -/

/-- `HostReadReg(off)` (10_state.md R22, R24 to R34): an unmapped or unaligned offset reads 0. A read changes
nothing. -/
def State.readReg (s : State) (off : RegOffset) : Word :=
  match off.toNat with
  | 0x00 => s.ctrl.word
  | 0x04 => s.len
  | 0x08 => s.offset
  | 0x0C => s.status.word
  | 0x10 => s.value
  | 0x14 => s.slen.setWidth 32
  | 0x18 => s.soff
  | 0x1C => cfgWord s.params
  | 0x20 => bufszWord s.params
  | _ => 0

/-- `HostWriteReg(off, w)` (10_state.md R24 to R26, R34, R35): LEN and OFFSET take any word while BUSY = 0; a write
to a read-only, unmapped or unaligned offset has no effect. -/
def State.writeReg (s : State) (off : RegOffset) (w : Word) : State :=
  match off.toNat with
  | 0x00 => s.writeCtrl w
  | 0x04 => if s.status.busy then s else { s with len := w }
  | 0x08 => if s.status.busy then s else { s with offset := w }
  | _ => s

/-! ### Completion -/

/-- The completion write (60_exceptions.md R184): STATUS, VALUE, SLEN and SOFF at once, and the internal state is
gone (10_state.md R37). -/
def State.complete (s : State) (c : Completion) : State :=
  { s with status := c.status, value := c.value, slen := c.slen, soff := c.soff, walk := none }

/-- The pre-check LEN_RANGE (60_exceptions.md R183): the buffer is present and longer than BUF. -/
def State.lenOutOfRange (s : State) (present : Bool) : Bool := present && decide (s.params.bufSize < s.len.toNat)

/-! ### The outside -/

/-- The host's coming transactions set (log 1). -/
def State.setPending (s : State) (ops : List HostOp) : State := { s with pending := ops }

/-- The coming turns set (log 2). -/
def State.setTurns (s : State) (ts : List Turn) : State := { s with turns := ts }

/-! ### Reset -/

/-- Reset (70_reset_and_hazards.md R200, R201, 10_state.md R39): the registers take their reset values, CFG and BUFSZ
keep theirs, an operation in progress is abandoned, no byte of BUF holds a value. What the host has yet to do and
has noted is no state of the block and stays (log 18). -/
def State.resetBlock (s : State) : State :=
  { State.resetWith s.params with pending := s.pending, turns := s.turns, noted := s.noted }

end Sys2Proof.Machine
end

