-- ==== Sys2Proof/Machine/Command.lean ====
section
/-! DEFINITION. The commands that decode nothing: the two reserved operations (60_exceptions.md R183) and SETCFG
(10_state.md R24, 30_encoding.md R73). -/

namespace Sys2Proof.Machine

/-- RSV2, GO with OP = 10 (60_exceptions.md R183, 30_encoding.md R73): the first pre-check fails with RESERVED_OP,
whatever the mode and the buffer (log 20). -/
def execRsv2 (_strict _present : Bool) (s : State) : Host.Outcome State Fault Refusal :=
  .next (s.complete (failPre .reservedOp))

/-- RSV3, GO with OP = 11 (60_exceptions.md R183, 30_encoding.md R73): as RSV2 (log 20). -/
def execRsv3 (_strict _present : Bool) (s : State) : Host.Outcome State Fault Refusal :=
  .next (s.complete (failPre .reservedOp))

/-- SETCFG (10_state.md R24, 30_encoding.md R73): OP, STRICT and PRESENT are stored and nothing starts; dropped while
BUSY = 1. -/
def execSetcfg (op : Nat) (strict present : Bool) (s : State) : Host.Outcome State Fault Refusal :=
  .next (if s.status.busy then s else s.storeCommand (BitVec.ofNat 2 op) strict present)

end Sys2Proof.Machine
end

