-- ==== Sys2Proof/Machine/Operands.lean ====
section
/-! DEFINITION. The forms an operation's operands take in BUF: the digit and continuation bit of a varint byte
(30_encoding.md R74), the big-endian length of a string (R79), the string bytes, and well-formed UTF-8 (R80). -/

namespace Sys2Proof.Machine

/-! ### The variable byte integer -/

/-- The continuation bit, bit 7: more bytes follow (30_encoding.md R74). -/
def moreFollow (b : Byte) : Bool := b.getLsbD 7

/-- The digit, bits 6:0, zero-extended (30_encoding.md R74, R76). -/
def digitOf (b : Byte) : Word := (b.extractLsb' 0 7).setWidth 32

/-- One byte taken: the index moves past it, the digit count rises, the digit is added in at 128^k
(40_varint_decode.md R103, R109). -/
def Walk.take (w : Walk) (b : Byte) : Walk :=
  ⟨w.i + 1, w.k + 1, w.acc + digitOf b <<< (7 * w.k)⟩

/-! ### The length-prefixed string -/

/-- The declared length, high byte first (41_string_decode.md R133, 30_encoding.md R79). -/
def declaredLength (hi lo : Byte) : BitVec 16 := (hi.setWidth 16) <<< 8 ||| lo.setWidth 16

/-- The bytes at `n` indices from `i` on, read in index order (41_string_decode.md R130, R136). -/
def State.blockReadRun (s : State) (i : Nat) : Nat → Except Fault (List Byte)
  | 0 => .ok []
  | n + 1 =>
    match s.blockRead i with
    | .error f => .error f
    | .ok b =>
      match s.blockReadRun (i + 1) n with
      | .error f => .error f
      | .ok bs => .ok (b :: bs)

/-! ### Well-formed UTF-8 -/

/-- The values one byte of a code-unit sequence may have (30_encoding.md R80). -/
structure ByteRange where
  lo : Byte
  hi : Byte
deriving DecidableEq, Repr

/-- The byte is in the range, both ends included. -/
def ByteRange.holds (r : ByteRange) (b : Byte) : Bool := decide (r.lo ≤ b) && decide (b ≤ r.hi)

/-- A byte that may follow any first byte not singled out: 80 to BF (30_encoding.md R80). -/
def tailRange : ByteRange := ⟨0x80, 0xBF⟩

/-- The table of 30_encoding.md R80, one row each, the ranges of bytes 1 to 4 (PRESUMED by the spec, log 21). -/
def utf8Rows : List (List ByteRange) :=
  [[⟨0x00, 0x7F⟩],
   [⟨0xC2, 0xDF⟩, tailRange],
   [⟨0xE0, 0xE0⟩, ⟨0xA0, 0xBF⟩, tailRange],
   [⟨0xE1, 0xEC⟩, tailRange, tailRange],
   [⟨0xED, 0xED⟩, ⟨0x80, 0x9F⟩, tailRange],
   [⟨0xEE, 0xEF⟩, tailRange, tailRange],
   [⟨0xF0, 0xF0⟩, ⟨0x90, 0xBF⟩, tailRange, tailRange],
   [⟨0xF1, 0xF3⟩, tailRange, tailRange, tailRange],
   [⟨0xF4, 0xF4⟩, ⟨0x80, 0x8F⟩, tailRange, tailRange]]

/-- What is left of the bytes after a code-unit sequence that fits the row; none if their start does not fit. -/
def takeRow : List ByteRange → List Byte → Option (List Byte)
  | [], rest => some rest
  | _ :: _, [] => none
  | r :: rs, b :: bs => if r.holds b then takeRow rs bs else none

/-- What is left of the bytes after one code-unit sequence of the table; none if no row fits. -/
def takeCodePoint (t : List Byte) : Option (List Byte) := utf8Rows.findSome? fun row => takeRow row t

/-- At most `fuel` code-unit sequences, one after another, make up the bytes. -/
def utf8Within : Nat → List Byte → Bool
  | _, [] => true
  | 0, _ :: _ => false
  | fuel + 1, b :: bs =>
    match takeCodePoint (b :: bs) with
    | some rest => utf8Within fuel rest
    | none => false

/-- `WellFormedUTF8` (30_encoding.md R80): the bytes split, from the first, into code-unit sequences of the table; a
sequence holds at least one byte, so their number is bounded by the bytes'. -/
def wellFormedUtf8 (t : List Byte) : Bool := utf8Within t.length t

end Sys2Proof.Machine
end

