-- ==== Sys2Proof/Machine/Text.lean ====
section
/-! DEFINITION. SDEC, the length-prefixed string decode (41_string_decode.md R130 to R139). -/

namespace Sys2Proof.Machine

/-- The checks after the prefix is read, in order: TRUNCATED (41_string_decode.md R134), STRING_TRAILING (R135),
BAD_UTF8 (R136), else success (R137). The string bytes are read only with UTF8_VALIDATE. -/
def sdecText (s : State) (n : BitVec 16) : Except Fault (Except Reason (BitVec 16)) :=
  if s.len.toNat < 2 + n.toNat then .ok (.error .truncated)
  else if s.params.strTrailingReject = true ∧ 2 + n.toNat < s.len.toNat then .ok (.error .stringTrailing)
  else if s.params.utf8Validate then
    match s.blockReadRun 2 n.toNat with
    | .error f => .error f
    | .ok t => if wellFormedUtf8 t then .ok (.ok n) else .ok (.error .badUtf8)
  else .ok (.ok n)

/-- The pseudocode of 41_string_decode.md R130: absent buffer (R131), short buffer (R132), the length prefix at
BUF[0] and BUF[1] (R133), then the checks on the text. OFFSET is not read. -/
def sdecResult (s : State) (present : Bool) : Except Fault (Except Reason (BitVec 16)) :=
  if present = false then .ok (.error .absentBuffer)
  else if s.len.toNat < 2 then .ok (.error .shortBuffer)
  else
    match s.blockRead 0 with
    | .error f => .error f
    | .ok hi =>
      match s.blockRead 1 with
      | .error f => .error f
      | .ok lo => sdecText s (declaredLength hi lo)

/-- SDEC (41_string_decode.md R130), the block's completion step once its GO was accepted (log 6): the pre-check
(60_exceptions.md R183), the decode, the completion write (R184). A byte never written stops the run (R201). -/
def execSdec (strict present : Bool) (s : State) : Host.Outcome State Fault Refusal :=
  if s.lenOutOfRange present then .next (s.complete (failPre .lenRange))
  else
    match sdecResult s present with
    | .error f => .fault f
    | .ok r => .next (s.complete (sdecCompletion strict r))

end Sys2Proof.Machine
end

