-- ==== Sys2Proof/Machine/Varint.lean ====
section
/-! DEFINITION. VDEC, the variable-byte-integer decode (40_varint_decode.md R100 to R109). -/

namespace Sys2Proof.Machine

/-- The loop of 40_varint_decode.md R100: the last byte read had bit 7 = 1, and `left` more may be read, which is
4 - k. In order: OVERSIZE (R105), TRUNCATED (R104), one byte taken (R103), and after a terminating byte the exact
consumption check (R106) or success (R107). -/
def readDigits (s : State) : (left : Nat) → Walk → Except Fault (Except Reason Word)
  | 0, _ => .ok (.error .oversize)
  | left + 1, w =>
    if s.len ≤ w.i then .ok (.error .truncated)
    else
      match s.blockRead w.i.toNat with
      | .error f => .error f
      | .ok b =>
        if moreFollow b then readDigits s left (w.take b)
        else if (w.take b).i ≠ s.len then .ok (.error .trailingBytes)
        else .ok (.ok (w.take b).acc)

/-- The pseudocode of 40_varint_decode.md R100: absent or empty buffer (R101), start offset outside the buffer
(R104), the single-byte form, which fills the whole buffer (R102), else the loop. -/
def vdecResult (s : State) (present : Bool) : Except Fault (Except Reason Word) :=
  if present = false ∨ s.len = 0 then .ok (.error .absentBuffer)
  else if s.len ≤ s.offset then .ok (.error .truncated)
  else
    match s.blockRead s.offset.toNat with
    | .error f => .error f
    | .ok b =>
      if moreFollow b then readDigits s (Config.maxVarintBytes - 1) ((Walk.start s.offset).take b)
      else if 1 < s.len then .ok (.error .fastPathTrailing)
      else .ok (.ok ((Walk.start s.offset).take b).acc)

/-- VDEC (40_varint_decode.md R100), the block's completion step once its GO was accepted (log 6): the pre-check
(60_exceptions.md R183), the decode, the completion write (R184). A byte never written stops the run (R201). -/
def execVdec (strict present : Bool) (s : State) : Host.Outcome State Fault Refusal :=
  if s.lenOutOfRange present then .next (s.complete (failPre .lenRange))
  else
    match vdecResult s present with
    | .error f => .fault f
    | .ok r => .next (s.complete (vdecCompletion strict r))

end Sys2Proof.Machine
end

