-- ==== Sys2Proof/Machine/Dispatch.lean ====
section
/-! DEFINITION. The one dispatch from a command to its meaning. -/

namespace Sys2Proof.Machine

def exec (i : Instr) (s : State) : Host.Outcome State Fault Refusal :=
  match i with
  | .vdec strict present => Sys2Proof.Machine.execVdec strict present s
  | .sdec strict present => Sys2Proof.Machine.execSdec strict present s
  | .rsv2 strict present => Sys2Proof.Machine.execRsv2 strict present s
  | .rsv3 strict present => Sys2Proof.Machine.execRsv3 strict present s
  | .setcfg op strict present => Sys2Proof.Machine.execSetcfg op strict present s

end Sys2Proof.Machine
end

