-- ==== Sys2Proof/Machine/HostBus.lean ====
section
/-! DEFINITION. The host's transactions on the bus (20_memory.md R51 to R53, 30_encoding.md R81) and the
pseudo-instructions of its written form (R82). -/

namespace Sys2Proof.Machine

/-- The host notes what a read returned (30_encoding.md R81; log 7). -/
def State.note (s : State) (r : HostRead) : State := { s with noted := r :: s.noted }

/-- `rb i`: the byte is noted, or the run stops on a byte never written (70_reset_and_hazards.md R201). -/
def State.hostNoteBuf (s : State) (i : Nat) : Host.Outcome State Fault Refusal :=
  match s.hostReadBuf i with
  | .error f => .fault f
  | .ok b => .next (s.note (.buf i b))

/-- The offset of STATUS (10_state.md R22). -/
def statusOffset : RegOffset := 0x0C

/-- One turn of `poll` (30_encoding.md R82): STATUS is read and noted, and the loop goes on while DONE is 0. -/
def State.hostPoll (s : State) : State :=
  let s' := s.note (.reg statusOffset (s.readReg statusOffset))
  if s.status.done then s' else s'.setPending (.poll :: s'.pending)

/-- One host transaction (20_memory.md R51), already taken from the pending ones. -/
def State.hostAccess (s : State) : HostOp → Host.Outcome State Fault Refusal
  | .wr off w => .next (s.writeReg off w)
  | .rd off => .next (s.note (.reg off (s.readReg off)))
  | .wb i b => .next (s.hostWriteBuf i b)
  | .rb i => s.hostNoteBuf i
  | .poll => .next s.hostPoll

/-- The word of a transaction that is the configuration write SETCFG: a CTRL write with GO = 0 (10_state.md R24,
30_encoding.md R73). A CTRL write with GO = 1 only starts its command; the block runs it later (log 6). -/
def HostOp.setcfgWord : HostOp → Option Word
  | .wr off w => if off = 0 ∧ cmdGo w = false then some w else none
  | .rd _ => none
  | .wb _ _ => none
  | .rb _ => none
  | .poll => none

/-- `wbs i, b_0, b_1, ..., b_m` (30_encoding.md R82). -/
def asmWbs (i : Nat) : List Byte → List HostOp
  | [] => []
  | b :: bs => .wb i b :: asmWbs (i + 1) bs

/-- `cfg op, s, p` (30_encoding.md R82). -/
def asmCfg (op : Nat) (strict present : Bool) : HostOp := .wr 0x00 (commandWord false op strict present)

/-- `vdec s, p` (30_encoding.md R82). -/
def asmVdec (strict present : Bool) : HostOp := .wr 0x00 (commandWord true 0 strict present)

/-- `sdec s, p` (30_encoding.md R82). -/
def asmSdec (strict present : Bool) : HostOp := .wr 0x00 (commandWord true 1 strict present)

end Sys2Proof.Machine
end

