-- ==== Sys2Proof/Machine/Step.lean ====
section
/-! DEFINITION. One step of the machine: whose turn it is (10_state.md R20, 70_reset_and_hazards.md R209; log 2), and
what that agent does. -/

namespace Sys2Proof.Machine

/-- The block's turn: while BUSY = 1 it runs the command it was started with, in one completion step
(60_exceptions.md R183); while BUSY = 0 its step is not enabled (70_reset_and_hazards.md R209; log 9). -/
def blockTurn (s : State) : Host.Outcome State Fault Refusal :=
  if s.status.busy then exec (decodeWord s.latchedCommand) s else .next s

/-- The host's turn: its next transaction, if it has one. A CTRL write with GO = 0 is the command SETCFG and runs at
once; every other transaction is a plain access (10_state.md R24; log 6). -/
def hostTurn (s : State) : Host.Outcome State Fault Refusal :=
  match s.pending with
  | [] => .next s
  | op :: rest =>
    match op.setcfgWord with
    | some w => exec (decodeWord w) (s.setPending rest)
    | none => (s.setPending rest).hostAccess op

/-- One step. The next turn laid down in `turns` is taken; with none left, the block moves if it can, and else the
host: a step that stays enabled is taken in the end (70_reset_and_hazards.md R209; log 2). With nothing left to do the
run is over and the state stays (R210; log 9). -/
def step (s : State) : Host.Outcome State Fault Refusal :=
  match s.turns with
  | [] => if s.status.busy then blockTurn s else hostTurn s
  | .block :: rest => blockTurn (s.setTurns rest)
  | .host :: rest => hostTurn (s.setTurns rest)
  | .reset :: rest => .next (s.setTurns rest).resetBlock

/-- The state with a command word where the next step takes its command from, and that step's turn laid down. A GO
command is latched in CTRL by its accepted write and run by the block, so the state is as that write leaves an idle
block, and the block is next; SETCFG is run by the host's own write, so that write is the host's next transaction, and
the host is next (log 1, log 6). Bits above `nbits` are 0. -/
def State.withFetchWord (s : State) (nbits w : Nat) : State :=
  let cmd : Word := BitVec.ofNat 32 (w % 2 ^ nbits)
  if cmdGo cmd then
    ((s.storeCommand (cmdOp cmd) (cmdStrict cmd) (cmdPresent cmd)).startOperation).setTurns (.block :: s.turns)
  else (s.setPending (.wr 0x00 cmd :: s.pending)).setTurns (.host :: s.turns)

end Sys2Proof.Machine
end

