-- ==== Sys2Proof/Machine/Reference.lean ====
section
/-! DEFINITION. The reference functions EncVarint, Pack and EncString (42_reference_encoders.md R160 to R167). They are
no operations of the block: no register, command or step performs them. They define canonical encodings. -/

namespace Sys2Proof.Machine

/-- Why a reference function gives no bytes. -/
inductive RefError
  /-- `raise InvalidArgument` (42_reference_encoders.md R161, R165). -/
  | invalidArgument
  /-- Refused: a string of more than 65535 bytes, where the function is undefined (R167). Safe. -/
  | stringTooLong
deriving DecidableEq, Repr

/-- What `EncString` gives: bytes, or a lenient sentinel (42_reference_encoders.md R165). -/
inductive EncodedText
  | bytes (b : List Byte)
  | emptyString
  | null
deriving DecidableEq, Repr

/-- The loop of `EncVarint` (42_reference_encoders.md R160): a digit, bit 7 set if more remain. `fuel` bounds the
number of digits. -/
def varintDigits : (fuel : Nat) → Nat → List Nat
  | 0, _ => []
  | fuel + 1, v =>
    if v = 0 then []
    else if 0 < v / 128 then (v % 128 ||| 0x80) :: varintDigits fuel (v / 128)
    else [v % 128]

/-- The encoding of a value that is not negative (42_reference_encoders.md R160): zero is one zero byte; a value has a
base-128 digit for each 7 bits begun. No upper bound (R162). -/
def varintSequence (v : Nat) : List Nat := if v = 0 then [0x00] else varintDigits (v.log2 / 7 + 1) v

/-- `EncVarint(value, strict)` (42_reference_encoders.md R160, R161): an absent value is `none` (log 15); an absent or
negative one is an error when strict and the empty sequence when lenient. -/
def encVarint (value : Option Int) (strict : Bool) : Except RefError (List Nat) :=
  match value with
  | some (.ofNat v) => .ok (varintSequence v)
  | some (.negSucc _) => if strict then .error .invalidArgument else .ok []
  | none => if strict then .error .invalidArgument else .ok []

/-- `Pack(seq)` (42_reference_encoders.md R163): each element becomes one byte, in order. -/
def pack (seq : List Nat) : List Byte := seq.map (BitVec.ofNat 8)

/-- The UTF-8 bytes of one code point (Unicode's layout, PRESUMED, log 14): none for a surrogate or a value above
U+10FFFF, which have no conversion. -/
def utf8OfCodePoint (c : Nat) : Option (List Byte) :=
  if c < 0x80 then some [BitVec.ofNat 8 c]
  else if c < 0x800 then some [BitVec.ofNat 8 (0xC0 + c / 64), BitVec.ofNat 8 (0x80 + c % 64)]
  else if 0xD800 ≤ c ∧ c ≤ 0xDFFF then none
  else if c < 0x10000 then
    some [BitVec.ofNat 8 (0xE0 + c / 4096), BitVec.ofNat 8 (0x80 + c / 64 % 64), BitVec.ofNat 8 (0x80 + c % 64)]
  else if c < 0x110000 then
    some [BitVec.ofNat 8 (0xF0 + c / 262144), BitVec.ofNat 8 (0x80 + c / 4096 % 64),
      BitVec.ofNat 8 (0x80 + c / 64 % 64), BitVec.ofNat 8 (0x80 + c % 64)]
  else none

/-- The UTF-8 bytes of a text given as code points (log 14): none if a code point has no conversion. -/
def utf8OfText : List Nat → Option (List Byte)
  | [] => some []
  | c :: cs =>
    match utf8OfCodePoint c, utf8OfText cs with
    | some b, some bs => some (b ++ bs)
    | _, _ => none

/-- The bytes of a string field: the length, high byte first, then the bytes (42_reference_encoders.md R164). -/
def stringField (u : List Byte) : List Byte :=
  BitVec.ofNat 8 (u.length / 256) :: BitVec.ofNat 8 (u.length % 256) :: u

/-- `EncString(text, strict)` (42_reference_encoders.md R164, R165, R167). -/
def encString (text : Option (List Nat)) (strict : Bool) : Except RefError EncodedText :=
  match text with
  | none => if strict then .error .invalidArgument else .ok .emptyString
  | some cs =>
    match utf8OfText cs with
    | none => if strict then .error .invalidArgument else .ok .null
    | some u => if Config.maxStringBytes < u.length then .error .stringTooLong else .ok (.bytes (stringField u))

end Sys2Proof.Machine
end

