-- ==== Sys2Proof/Safety.lean ====
section
/-! DEFINITION. What the statements are made in: which bytes a command needs written, which reports the registers may
hold, and the invariant every step keeps. -/

namespace Sys2Proof.Machine

/-- Every byte of BUF at an index from `lo` up to, not including, `hi` was written since reset
(70_reset_and_hazards.md R201). -/
abbrev State.Written (s : State) (lo hi : Nat) : Prop := ∀ j, j < hi → lo ≤ j → (s.buf.read j).isSome = true

/-- The bytes VDEC may read are written: at most 4 from OFFSET on, below LEN (20_memory.md R54, 40_varint_decode.md
R108). -/
abbrev State.VarintWritten (s : State) : Prop :=
  s.Written s.offset.toNat (min s.len.toNat (s.offset.toNat + Config.maxVarintBytes))

/-- All the bytes of the supplied buffer are written: what 70_reset_and_hazards.md R202 asks of the host. -/
abbrev State.BufferWritten (s : State) : Prop := s.Written 0 s.len.toNat

/-- BUF holds a sequence of bytes from an index on. -/
abbrev State.Holds (s : State) (i : Nat) (bs : List Byte) : Prop :=
  ∀ j, j < bs.length → s.buf.read (i + j) = bs[j]?

/-- The reasons VDEC raises (60_exceptions.md R181). -/
def Reason.ofVdec : Reason → Bool
  | .absentBuffer => true
  | .truncated => true
  | .fastPathTrailing => true
  | .trailingBytes => true
  | .oversize => true
  | _ => false

/-- The reasons SDEC raises (60_exceptions.md R181). -/
def Reason.ofSdec : Reason → Bool
  | .absentBuffer => true
  | .shortBuffer => true
  | .truncated => true
  | .stringTrailing => true
  | .badUtf8 => true
  | _ => false

/-- The reports the registers may hold: a row of the table of 60_exceptions.md R184, or the reset values, which read
as the success of a VDEC with value 0. VALUE of a success is below 2^28 (10_state.md R29). -/
def State.ReportLegal (s : State) : Prop :=
  -- VDEC success
  (s.status.err = .none ∧ s.status.sent = .none ∧ s.status.reason = .none ∧
    s.value.toNat ≤ Config.maxVarintValue ∧ s.slen = 0 ∧ s.soff = 0) ∨
  -- SDEC success
  (s.status.err = .none ∧ s.status.sent = .none ∧ s.status.reason = .none ∧ s.value = 0 ∧ s.soff = 2) ∨
  -- a strict error or a failed pre-check
  (s.status.reason ≠ .none ∧ s.status.err = s.status.reason.kind ∧ s.status.sent = .none ∧
    s.value = 0 ∧ s.slen = 0 ∧ s.soff = 0) ∨
  -- a lenient VDEC error
  (s.status.reason.ofVdec = true ∧ s.status.err = .none ∧ s.status.sent = .minusOne ∧
    s.value = 0xFFFFFFFF ∧ s.slen = 0 ∧ s.soff = 0) ∨
  -- a lenient SDEC error
  (s.status.reason.ofSdec = true ∧ s.status.err = .none ∧ s.status.sent = stringSentinel s.status.reason ∧
    s.value = 0 ∧ s.slen = 0 ∧ s.soff = 0)

/-- What holds of the machine at reset and after every step. -/
structure State.Inv (s : State) : Prop where
  /-- The parameters are legal (00_scope.md R6). -/
  params_legal : s.params.Legal
  /-- BUF keeps its canonical form. -/
  buf_wf : Memory.wf s.buf = true
  /-- No byte lies outside BUF (10_state.md R36). -/
  buf_within : Memory.within s.buf s.params.bufSize = true
  /-- BUSY and DONE are never both 1 (10_state.md R28). -/
  not_busy_and_done : ¬(s.status.busy = true ∧ s.status.done = true)
  /-- Internal state is held only while BUSY = 1 (10_state.md R37). -/
  walk_while_busy : s.walk = if s.status.busy then some (Walk.start s.offset) else none
  /-- STATUS and the result registers hold a report of 60_exceptions.md R184. -/
  report_legal : s.ReportLegal

/-- The state after a completion that reports exactly these values and changes nothing else: BUSY 0, DONE 1, no
internal state left (60_exceptions.md R184, 10_state.md R37). -/
def State.reported (s : State) (err : ErrKind) (sent : Sentinel) (reason : Reason) (value : Word) (slen : BitVec 16)
    (soff : Word) : State :=
  { s with status := ⟨false, true, err, sent, reason⟩, value := value, slen := slen, soff := soff, walk := none }

/-- The report of a VDEC error in either mode (60_exceptions.md R184): strict the kind, lenient the sentinel -1. -/
def State.vdecError (s : State) (strict : Bool) (kind : ErrKind) (reason : Reason) : State :=
  if strict then s.reported kind .none reason 0 0 0 else s.reported .none .minusOne reason 0xFFFFFFFF 0 0

/-- The report of an SDEC error in either mode (60_exceptions.md R184): strict the kind, lenient the sentinel. -/
def State.sdecError (s : State) (strict : Bool) (kind : ErrKind) (sent : Sentinel) (reason : Reason) : State :=
  if strict then s.reported kind .none reason 0 0 0 else s.reported .none sent reason 0 0 0

/-- The value of a varint's bytes, least significant digit first (30_encoding.md R76). -/
def varintValue : List Byte → Nat
  | [] => 0
  | b :: bs => b.toNat % 128 + 128 * varintValue bs

/-- The bytes split, from the first, into sequences each of which matches a row of the table (30_encoding.md R80). -/
def SplitsIntoRows (t : List Byte) : Prop :=
  ∃ parts : List (List Byte), t = parts.flatten ∧
    ∀ p ∈ parts, ∃ row ∈ utf8Rows, List.Forall₂ (fun (r : ByteRange) (b : Byte) => r.lo ≤ b ∧ b ≤ r.hi) row p

/-- The state an outcome gives, none where the run stops. -/
def nextState : Host.Outcome State Fault Refusal → Option State
  | .next s => some s
  | .fault _ => none
  | .refused _ => none

/-- The reason a run stops with a fault. -/
def faultOf : Host.Outcome State Fault Refusal → Option Fault
  | .next _ => none
  | .fault f => some f
  | .refused _ => none

/-- An outcome with its next state changed; a stop stays the same stop. -/
def mapNext (g : State → State) : Host.Outcome State Fault Refusal → Host.Outcome State Fault Refusal
  | .next s => .next (g s)
  | .fault f => .fault f
  | .refused r => .refused r

end Sys2Proof.Machine
end

