-- ==== Sys2Proof/Certificates/Slice0/Obligations.lean ====
section
/-! DEFINITION. What the model claims about the block, for the provers: the numbered rules of spec/ as statements about
`exec` and `step`. Each docstring names the rule. -/

open Sys2Proof Sys2Proof.Machine

/-! ### Encoding -/

/-- 30_encoding.md R70, R72, R73, R82: command words written out bit by bit from the format decode to their commands,
whatever stands in bits 31:5. -/
def Obligations.SpecWordsDecodeToTheirCommands : Prop :=
  decodeWord 0b11001 = .vdec true true ∧ decodeWord 0b00001 = .vdec false false ∧
  decodeWord 0b10011 = .sdec false true ∧ decodeWord 0b01011 = .sdec true false ∧
  decodeWord 0b10101 = .rsv2 false true ∧ decodeWord 0b00111 = .rsv3 false false ∧
  decodeWord 0b10100 = .setcfg 2 false true ∧ decodeWord 0xFFFFFFF8 = .setcfg 0 true true

/-- 30_encoding.md R70, R72, R73: decoding an encoded well-formed command gives it back; encoding a decoded word gives
back its bits 4:0, the ignored bits 31:5 being 0; and what decodes is well formed. -/
def Obligations.DecodeAndEncodeAgree : Prop :=
  (∀ i : Instr, i.WellFormed →
    decode (encode i).toNat = .ok i ∧ decodeTableWord 32 (encode i).toNat = some i) ∧
  ∀ w : Word, encode (decodeWord w) = w &&& 0x1F ∧ (decodeWord w).WellFormed

/-- 30_encoding.md R72, R73 and spec/opcode_table.json: every word agrees with the match and mask of exactly one row,
and the decoder gives that row's command. -/
def Obligations.OpcodeRowsPartitionTheWords : Prop :=
  ∀ w : Word, ∃ r ∈ opcodeRows, r.covers w = true ∧ (decodeWord w).mnemonic = r.mnemonic ∧
    ∀ r' ∈ opcodeRows, r'.covers w = true → r' = r

/-- 30_encoding.md R73: words that differ in bits 31:5 alone are the same command. -/
def Obligations.ReservedCommandBitsAreIgnored : Prop :=
  ∀ w w' : Word, w &&& 0x1F = w' &&& 0x1F → decodeWord w = decodeWord w'

/-! ### Reset -/

/-- 10_state.md R39, 70_reset_and_hazards.md R200: a reset, at any point and also while BUSY = 1, gives every register
its reset value, keeps CFG and BUFSZ, leaves no byte of BUF with a value, abandons an operation in progress; the
outside's own record is untouched (log 18). -/
def Obligations.ResetGivesTheResetValues : Prop :=
  ∀ (s : State) (ts : List Turn), s.turns = .reset :: ts →
    ∃ t, step s = .next t ∧
      (∀ off ∈ ([0x00, 0x04, 0x08, 0x0C, 0x10, 0x14, 0x18] : List RegOffset), t.readReg off = 0) ∧
      t.readReg 0x1C = s.readReg 0x1C ∧ t.readReg 0x20 = s.readReg 0x20 ∧ t.params = s.params ∧
      (∀ j, t.buf.read j = none) ∧ t.walk = none ∧ t.status.busy = false ∧ t.status.done = false ∧
      t.ctrl.strict = false ∧ t.ctrl.present = false ∧
      t.pending = s.pending ∧ t.turns = ts ∧ t.noted = s.noted

/-- 10_state.md R39: what every register reads right after reset, and that no byte of BUF holds a value. BUFSZ reads
the reference 65537 (00_scope.md R6); UTF8_VALIDATE = 0 at reset is the model's choice (log 3). -/
def Obligations.RegistersRightAfterReset : Prop :=
  (∀ off ∈ ([0x00, 0x04, 0x08, 0x0C, 0x10, 0x14, 0x18, 0x1C] : List RegOffset), State.reset.readReg off = 0) ∧
  State.reset.readReg 0x20 = 65537 ∧ (∀ j, State.reset.buf.read j = none) ∧ State.reset.walk = none

/-! ### The register space -/

/-- 10_state.md R24: a host write to CTRL. While BUSY = 1 it is dropped; else OP, STRICT and PRESENT are stored and,
with GO = 1, BUSY is set and DONE cleared while the other STATUS fields and the results stay; and a read of CTRL gives
27 zeros, PRESENT, STRICT, OP, 0. That a GO also lays the internal state at OFFSET is the model's choice (log 5). -/
def Obligations.ControlWriteStoresAndStarts : Prop :=
  ∀ (s : State) (w : Word) (ops : List HostOp) (ts : List Turn),
    s.turns = .host :: ts → s.pending = .wr 0x00 w :: ops →
      (s.status.busy = true → step s = .next { s with pending := ops, turns := ts }) ∧
      (s.status.busy = false → w.getLsbD 0 = false →
        step s = .next { s with
          pending := ops, turns := ts, ctrl := ⟨w.extractLsb' 1 2, w.getLsbD 3, w.getLsbD 4⟩ }) ∧
      (s.status.busy = false → w.getLsbD 0 = true →
        step s = .next { s with
          pending := ops, turns := ts, ctrl := ⟨w.extractLsb' 1 2, w.getLsbD 3, w.getLsbD 4⟩,
          status := { s.status with busy := true, done := false }, walk := some ⟨s.offset, 0, 0⟩ }) ∧
      s.readReg 0x00 =
        (0 : BitVec 27) ++ BitVec.ofBool s.ctrl.present ++ BitVec.ofBool s.ctrl.strict ++ s.ctrl.op ++ (0 : BitVec 1)

/-- 10_state.md R23, R24, 30_encoding.md R73: after any word is written to CTRL of an idle block, CTRL reads back that
word's bits 4:1, with GO and bits 31:5 zero. -/
def Obligations.ControlReadsBackBitsFourToOne : Prop :=
  ∀ (s : State) (w : Word), s.status.busy = false → (s.writeReg 0x00 w).readReg 0x00 = w &&& 0x1E

/-- 10_state.md R25, R26: an idle block stores any word written to LEN or to OFFSET, and changes nothing else. -/
def Obligations.LenAndOffsetTakeAnyWord : Prop :=
  ∀ (s : State) (w : Word) (ops : List HostOp) (ts : List Turn), s.turns = .host :: ts → s.status.busy = false →
    (s.pending = .wr 0x04 w :: ops → step s = .next { s with pending := ops, turns := ts, len := w }) ∧
    (s.pending = .wr 0x08 w :: ops → step s = .next { s with pending := ops, turns := ts, offset := w })

/-- 70_reset_and_hazards.md R205: while BUSY = 1 every host write, to CTRL, LEN, OFFSET or BUF, has no effect, and no
flag records the loss. -/
def Obligations.WritesDuringAnOperationAreLost : Prop :=
  ∀ (s : State) (op : HostOp) (ops : List HostOp) (ts : List Turn),
    s.turns = .host :: ts → s.pending = op :: ops → s.status.busy = true →
    ((∃ off w, op = .wr off w) ∨ ∃ i b, op = .wb i b) →
      step s = .next { s with pending := ops, turns := ts }

/-- 10_state.md R34, R35: a write at an offset other than those of CTRL, LEN and OFFSET, so to a read-only register or
to an unmapped or unaligned offset, has no effect; a read at an unmapped or unaligned offset gives 0. -/
def Obligations.ReadOnlyAndUnmappedOffsets : Prop :=
  ∀ (s : State) (off : RegOffset) (w : Word) (ops : List HostOp) (ts : List Turn), s.turns = .host :: ts →
    (off ∉ ([0x00, 0x04, 0x08] : List RegOffset) → s.pending = .wr off w :: ops →
      step s = .next { s with pending := ops, turns := ts }) ∧
    (off ∉ ([0x00, 0x04, 0x08, 0x0C, 0x10, 0x14, 0x18, 0x1C, 0x20] : List RegOffset) → s.pending = .rd off :: ops →
      step s = .next { s with pending := ops, turns := ts, noted := .reg off 0 :: s.noted })

/-- 10_state.md R22, R24 to R33: a host read of any mapped register, CTRL, STATUS, CFG and BUFSZ too, gives the
register's word, in either activity state and with no side effect but the host's note of that word (log 7). The words of
LEN, OFFSET, VALUE, SLEN (zero-extended) and SOFF are the registers; those of CTRL, STATUS, CFG and BUFSZ are stated by
ControlWriteStoresAndStarts, StatusFieldsHaveTheirPlaces and ParameterRegistersAreConstant. -/
def Obligations.HostReadsTheMappedRegister : Prop :=
  ∀ (s : State) (off : RegOffset) (ops : List HostOp) (ts : List Turn),
    s.turns = .host :: ts → s.pending = .rd off :: ops →
    off ∈ ([0x00, 0x04, 0x08, 0x0C, 0x10, 0x14, 0x18, 0x1C, 0x20] : List RegOffset) →
      step s = .next { s with pending := ops, turns := ts, noted := .reg off (s.readReg off) :: s.noted } ∧
      s.readReg 0x04 = s.len ∧ s.readReg 0x08 = s.offset ∧ s.readReg 0x10 = s.value ∧
      s.readReg 0x14 = s.slen.setWidth 32 ∧ s.readReg 0x18 = s.soff

/-- 10_state.md R27: STATUS reads BUSY in bit 0, DONE in bit 1, ERR in bits 3:2, SENT in bits 5:4, REASON in bits 11:8
and 0 elsewhere, with the codes of R27 and 60_exceptions.md R180, R181; writes to it are ignored; it reads 0 after reset. -/
def Obligations.StatusFieldsHaveTheirPlaces : Prop :=
  (∀ s : State,
    (s.readReg 0x0C).getLsbD 0 = s.status.busy ∧ (s.readReg 0x0C).getLsbD 1 = s.status.done ∧
    (s.readReg 0x0C).extractLsb' 2 2 =
      (match s.status.err with | .none => 0b00 | .invalidArgument => 0b01 | .malformedInput => 0b10) ∧
    (s.readReg 0x0C).extractLsb' 4 2 =
      (match s.status.sent with | .none => 0b00 | .minusOne => 0b01 | .emptyString => 0b10 | .null => 0b11) ∧
    (s.readReg 0x0C).extractLsb' 6 2 = 0 ∧
    (s.readReg 0x0C).extractLsb' 8 4 =
      (match s.status.reason with
        | .none => 0 | .absentBuffer => 1 | .shortBuffer => 2 | .truncated => 3 | .fastPathTrailing => 4
        | .trailingBytes => 5 | .oversize => 6 | .stringTrailing => 7 | .badUtf8 => 8 | .reservedOp => 9
        | .lenRange => 10) ∧
    (s.readReg 0x0C).extractLsb' 12 20 = 0) ∧
  (∀ (s : State) (w : Word), s.writeReg 0x0C w = s) ∧ State.reset.readReg 0x0C = 0

/-- 10_state.md R32, R33: CFG reads UTF8_VALIDATE in bit 0, STR_TRAILING_REJECT in bit 1 and 0 elsewhere; BUFSZ reads
BUF_SIZE; writes to them are ignored, and no step changes either. -/
def Obligations.ParameterRegistersAreConstant : Prop :=
  ∀ s : State,
    (s.readReg 0x1C).getLsbD 0 = s.params.utf8Validate ∧ (s.readReg 0x1C).getLsbD 1 = s.params.strTrailingReject ∧
    (s.readReg 0x1C).extractLsb' 2 30 = 0 ∧ (s.params.Legal → (s.readReg 0x20).toNat = s.params.bufSize) ∧
    (∀ w, s.writeReg 0x1C w = s ∧ s.writeReg 0x20 w = s) ∧
    ∀ t, step s = .next t →
      t.params = s.params ∧ t.readReg 0x1C = s.readReg 0x1C ∧ t.readReg 0x20 = s.readReg 0x20

/-! ### The buffer -/

/-- 20_memory.md R52: a host byte write is dropped while BUSY = 1 and at an index outside BUF; else exactly that byte
changes, and no register. -/
def Obligations.HostByteWriteChangesOneByte : Prop :=
  ∀ (s : State) (i : Nat) (b : Byte) (ops : List HostOp) (ts : List Turn),
    s.turns = .host :: ts → s.pending = .wb i b :: ops →
      (s.status.busy = true ∨ s.params.bufSize ≤ i → step s = .next { s with pending := ops, turns := ts }) ∧
      (s.status.busy = false → i < s.params.bufSize →
        ∃ m : Memory, step s = .next { s with pending := ops, turns := ts, buf := m } ∧
          m.read i = some b ∧ ∀ j, j ≠ i → m.read j = s.buf.read j)

/-- 20_memory.md R53, in either activity state: a host byte read gives the byte last written, or 0 outside BUF, and
has no side effect but the host's note of it (log 7). -/
def Obligations.HostByteReadGivesTheByte : Prop :=
  ∀ (s : State) (i : Nat) (ops : List HostOp) (ts : List Turn), s.turns = .host :: ts → s.pending = .rb i :: ops →
    (∀ b, i < s.params.bufSize → s.buf.read i = some b →
      step s = .next { s with pending := ops, turns := ts, noted := .buf i b :: s.noted }) ∧
    (s.params.bufSize ≤ i →
      step s = .next { s with pending := ops, turns := ts, noted := .buf i 0 :: s.noted })

/-- 70_reset_and_hazards.md R201: the host's read of a byte of BUF not written since reset stops the run. -/
def Obligations.HostReadOfAnUnwrittenByteStops : Prop :=
  ∀ (s : State) (i : Nat) (ops : List HostOp) (ts : List Turn), s.turns = .host :: ts → s.pending = .rb i :: ops →
    i < s.params.bufSize → s.buf.read i = none → step s = .fault (.hostReadUnwritten i)

/-! ### What a step runs -/

/-- 10_state.md R20, 20_memory.md R64, 60_exceptions.md R183: on the block's turn a busy block runs the command CTRL
was latched with, the one whose word has CTRL's fields and GO = 1 (log 2, log 6). The idle clause is the model's choice
(log 9): 70_reset_and_hazards.md R209 says that the block's step is not enabled while BUSY = 0, and the model takes the
turn off and changes nothing. -/
def Obligations.BlockRunsTheLatchedCommand : Prop :=
  ∀ (s : State) (ts : List Turn), s.turns = .block :: ts →
    (s.status.busy = false → step s = .next { s with turns := ts }) ∧
    (s.status.busy = true →
      ∀ w : Word, w &&& 0x1F = s.readReg 0x00 ||| 1 → step s = exec (decodeWord w) { s with turns := ts })

/-- 30_encoding.md R73: the host's write of a word with GO = 0 to CTRL runs the command that word decodes to. -/
def Obligations.ConfigurationWriteRunsSetcfg : Prop :=
  ∀ (s : State) (w : Word) (ops : List HostOp) (ts : List Turn),
    s.turns = .host :: ts → s.pending = .wr 0x00 w :: ops → w.getLsbD 0 = false →
      step s = exec (decodeWord w) { s with pending := ops, turns := ts }

/-- 10_state.md R24, 70_reset_and_hazards.md R209, log 1, log 6: the very next step after a command word is laid where
the machine fetches from runs that command; for a GO word in the state its accepted write leaves, for a SETCFG word in
the state the host's write finds. The placing is the model's. -/
def Obligations.FetchedCommandWordRunsNext : Prop :=
  ∀ (s : State) (w : Word),
    (w.getLsbD 0 = true →
      step (s.withFetchWord 32 w.toNat) =
        exec (decodeWord w) { s with
          ctrl := ⟨w.extractLsb' 1 2, w.getLsbD 3, w.getLsbD 4⟩,
          status := { s.status with busy := true, done := false }, walk := some ⟨s.offset, 0, 0⟩ }) ∧
    (w.getLsbD 0 = false → step (s.withFetchWord 32 w.toNat) = exec (decodeWord w) s)

/-- 30_encoding.md R82: `poll` reads STATUS, and the loop goes on, so its transaction stays the host's next one, while
bit 1 (DONE) of the word read is 0 (log 8). -/
def Obligations.PollGoesOnUntilDone : Prop :=
  ∀ (s : State) (ops : List HostOp) (ts : List Turn), s.turns = .host :: ts → s.pending = .poll :: ops →
    ((s.readReg 0x0C).getLsbD 1 = false →
      step s = .next { s with turns := ts, noted := .reg 0x0C (s.readReg 0x0C) :: s.noted }) ∧
    ((s.readReg 0x0C).getLsbD 1 = true →
      step s = .next { s with pending := ops, turns := ts, noted := .reg 0x0C (s.readReg 0x0C) :: s.noted })

/-- 70_reset_and_hazards.md R209, log 2: with no turn laid down the machine still moves: the block while BUSY = 1, else
the host. Which of the two moves is the model's choice. -/
def Obligations.WithNoTurnLaidDownTheMachineMoves : Prop :=
  ∀ s : State, s.turns = [] →
    (s.status.busy = true → step s = step { s with turns := [.block] }) ∧
    (s.status.busy = false → step s = step { s with turns := [.host] })

/-- 70_reset_and_hazards.md R210, log 9: when the host has nothing left to do, no turn is laid down and BUSY = 0, the
run is over and the machine stays as it is. -/
def Obligations.AFinishedRunStaysAsItIs : Prop :=
  ∀ s : State, s.turns = [] → s.pending = [] → s.status.busy = false → step s = .next s

/-! ### Commands that decode nothing -/

/-- 60_exceptions.md R183: the completion step's pre-checks in their order, in either mode. RESERVED_OP comes first, then
LEN_RANGE for a present buffer; neither carries a sentinel; and otherwise OP 00 runs VDEC and OP 01 runs SDEC. -/
def Obligations.PreChecksComeFirst : Prop :=
  ∀ (s : State) (ts : List Turn), s.turns = .block :: ts → s.status.busy = true →
    (s.ctrl.op = 0b10 ∨ s.ctrl.op = 0b11 →
      step s = .next (State.reported { s with turns := ts } .invalidArgument .none .reservedOp 0 0 0)) ∧
    (s.ctrl.op = 0b00 ∨ s.ctrl.op = 0b01 → s.ctrl.present = true → s.params.bufSize < s.len.toNat →
      step s = .next (State.reported { s with turns := ts } .invalidArgument .none .lenRange 0 0 0)) ∧
    (s.ctrl.present = false ∨ s.len.toNat ≤ s.params.bufSize →
      (s.ctrl.op = 0b00 → step s = exec (.vdec s.ctrl.strict s.ctrl.present) { s with turns := ts }) ∧
      (s.ctrl.op = 0b01 → step s = exec (.sdec s.ctrl.strict s.ctrl.present) { s with turns := ts }))

/-- 60_exceptions.md R183, R184: RSV2 and RSV3 complete, in any state and mode, with INVALID_ARGUMENT, RESERVED_OP, no
sentinel and zero results, and change nothing else. -/
def Obligations.ReservedOperationsComplete : Prop :=
  ∀ (strict present : Bool) (s : State),
    exec (.rsv2 strict present) s = .next (s.reported .invalidArgument .none .reservedOp 0 0 0) ∧
    exec (.rsv3 strict present) s = .next (s.reported .invalidArgument .none .reservedOp 0 0 0)

/-- 60_exceptions.md R183, R184: VDEC and SDEC of a present buffer longer than BUF complete with INVALID_ARGUMENT,
LEN_RANGE, in either mode with no sentinel, and change nothing else. -/
def Obligations.LenRangeIsReportedInEitherMode : Prop :=
  ∀ (strict : Bool) (s : State), s.params.bufSize < s.len.toNat →
    exec (.vdec strict true) s = .next (s.reported .invalidArgument .none .lenRange 0 0 0) ∧
    exec (.sdec strict true) s = .next (s.reported .invalidArgument .none .lenRange 0 0 0)

/-- 10_state.md R24, 30_encoding.md R73: SETCFG stores OP, STRICT and PRESENT of an idle block and changes nothing else;
while BUSY = 1 it is dropped. It is legal with every OP value, the reserved ones too. -/
def Obligations.SetcfgStoresTheFields : Prop :=
  ∀ (op : BitVec 2) (strict present : Bool) (s : State),
    (s.status.busy = false →
      exec (.setcfg op.toNat strict present) s = .next { s with ctrl := ⟨op, strict, present⟩ }) ∧
    (s.status.busy = true → exec (.setcfg op.toNat strict present) s = .next s)

/-! ### VDEC -/

/-- 40_varint_decode.md R101: an absent or an empty buffer is ABSENT_BUFFER; no byte need be written. -/
def Obligations.VdecAbsentOrEmptyBuffer : Prop :=
  ∀ (strict present : Bool) (s : State), present = false ∨ s.len = 0 →
    exec (.vdec strict present) s = .next (s.vdecError strict .invalidArgument .absentBuffer)

/-- 40_varint_decode.md R104: where the next byte to read is not below LEN, VDEC raises TRUNCATED: at a start offset
outside the buffer, and after one to three bytes with bit 7 = 1 when the buffer ends there. -/
def Obligations.VdecTruncated : Prop :=
  ∀ (strict : Bool) (s : State) (more : List Byte), s.len ≠ 0 → s.len.toNat ≤ s.params.bufSize →
    more.length < 4 → (∀ b ∈ more, b.getLsbD 7 = true) → s.Holds s.offset.toNat more →
    (more = [] → s.len.toNat ≤ s.offset.toNat) → (more ≠ [] → s.offset.toNat + more.length = s.len.toNat) →
      exec (.vdec strict true) s = .next (s.vdecError strict .malformedInput .truncated)

/-- 40_varint_decode.md R102: a first byte with bit 7 = 0 is the whole varint, its value is bits 6:0, and it must be
the whole buffer: with LEN above 1 it is FAST_PATH_TRAILING, whatever OFFSET. -/
def Obligations.VdecSingleByteForm : Prop :=
  ∀ (strict : Bool) (s : State) (b : Byte), s.len.toNat ≤ s.params.bufSize → s.offset.toNat < s.len.toNat →
    s.buf.read s.offset.toNat = some b → b.getLsbD 7 = false →
    (s.len = 1 →
      exec (.vdec strict true) s = .next (s.reported .none .none .none ((b.extractLsb' 0 7).setWidth 32) 0 0)) ∧
    (1 < s.len.toNat → exec (.vdec strict true) s = .next (s.vdecError strict .malformedInput .fastPathTrailing))

/-- 30_encoding.md R76, 40_varint_decode.md R103, R106, R107: one to three bytes with bit 7 = 1 and a terminating byte
decode to the sum of digit * 128^position when the terminating byte is the buffer's last; bytes after it are
TRAILING_BYTES. -/
def Obligations.VdecMultiByteForm : Prop :=
  ∀ (strict : Bool) (s : State) (more : List Byte) (last : Byte), s.len.toNat ≤ s.params.bufSize →
    1 ≤ more.length → more.length ≤ 3 → (∀ b ∈ more, b.getLsbD 7 = true) → last.getLsbD 7 = false →
    s.Holds s.offset.toNat (more ++ [last]) →
    (s.offset.toNat + more.length + 1 = s.len.toNat →
      exec (.vdec strict true) s =
        .next (s.reported .none .none .none (BitVec.ofNat 32 (varintValue (more ++ [last]))) 0 0)) ∧
    (s.offset.toNat + more.length + 1 < s.len.toNat →
      exec (.vdec strict true) s = .next (s.vdecError strict .malformedInput .trailingBytes))

/-- 40_varint_decode.md R105: four bytes with bit 7 = 1 are OVERSIZE, whether or not a fifth byte exists or was
written. -/
def Obligations.VdecOversize : Prop :=
  ∀ (strict : Bool) (s : State) (more : List Byte), s.len.toNat ≤ s.params.bufSize → more.length = 4 →
    (∀ b ∈ more, b.getLsbD 7 = true) → s.Holds s.offset.toNat more → s.offset.toNat + 4 ≤ s.len.toNat →
      exec (.vdec strict true) s = .next (s.vdecError strict .malformedInput .oversize)

/-- 40_varint_decode.md R107, 10_state.md R29: a VDEC that reports no reason reports no error, no sentinel and a value
of at most 268,435,455; a lenient one that reports a reason of VDEC's own reports VALUE 0xFFFFFFFF. So in lenient
mode VALUE = 0xFFFFFFFF means failure. -/
def Obligations.VdecValueIsBelowTwoToThe28 : Prop :=
  ∀ (strict present : Bool) (s t : State), exec (.vdec strict present) s = .next t →
    (t.status.reason = .none →
      t.value.toNat ≤ 268435455 ∧ t.status.err = .none ∧ t.status.sent = .none ∧ t.slen = 0 ∧ t.soff = 0) ∧
    (t.status.reason ≠ .none → strict = false → t.status.reason ≠ .lenRange →
      t.value = 0xFFFFFFFF ∧ t.status.err = .none ∧ t.status.sent = .minusOne) ∧
    (t.value = 0xFFFFFFFF → strict = false ∧ t.status.reason ≠ .none)

/-- 70_reset_and_hazards.md R201, 20_memory.md R54: VDEC stops the run exactly when it must read a byte never written:
the buffer is present and legal, the index is below LEN and among the first four from OFFSET on, and every byte
before it has bit 7 = 1. It never answers a refusal. -/
def Obligations.VdecStopsExactlyAtAnUnwrittenByte : Prop :=
  ∀ (strict present : Bool) (s : State),
    (∀ r, exec (.vdec strict present) s ≠ .refused r) ∧
    ∀ f, exec (.vdec strict present) s = .fault f ↔
      present = true ∧ s.len.toNat ≤ s.params.bufSize ∧
        ∃ more : List Byte, more.length < 4 ∧ s.offset.toNat + more.length < s.len.toNat ∧
          (∀ b ∈ more, b.getLsbD 7 = true) ∧ s.Holds s.offset.toNat more ∧
          s.buf.read (s.offset.toNat + more.length) = none ∧
          f = .blockReadUnwritten (s.offset.toNat + more.length)

/-- 20_memory.md R54, 40_varint_decode.md R108: VDEC reads BUF only at the at most four indices from OFFSET on that are
below LEN. Two buffers that agree there give the same outcome. -/
def Obligations.VdecReadsAtMostFourBytes : Prop :=
  ∀ (strict present : Bool) (s : State) (m : Memory),
    (∀ j, s.offset.toNat ≤ j → j < s.offset.toNat + 4 → j < s.len.toNat → m.read j = s.buf.read j) →
      exec (.vdec strict present) { s with buf := m } =
        mapNext (fun t => { t with buf := m }) (exec (.vdec strict present) s)

/-! ### SDEC -/

/-- 41_string_decode.md R131: an absent buffer is ABSENT_BUFFER, in lenient mode with the empty string; no byte need be
written. A present buffer of no bytes is not absent: it is SHORT_BUFFER. -/
def Obligations.SdecAbsentBuffer : Prop :=
  ∀ (strict : Bool) (s : State),
    exec (.sdec strict false) s = .next (s.sdecError strict .invalidArgument .emptyString .absentBuffer) ∧
    (s.len = 0 → exec (.sdec strict true) s = .next (s.sdecError strict .invalidArgument .null .shortBuffer))

/-- 41_string_decode.md R132: a present buffer of 0 or 1 bytes is SHORT_BUFFER, in lenient mode with null; no byte need
be written. -/
def Obligations.SdecShortBuffer : Prop :=
  ∀ (strict : Bool) (s : State), s.len.toNat < 2 → s.len.toNat ≤ s.params.bufSize →
    exec (.sdec strict true) s = .next (s.sdecError strict .invalidArgument .null .shortBuffer)

/-- 41_string_decode.md R133, R134: with the declared length BUF[0] * 256 + BUF[1], fewer bytes than that after the
prefix are TRUNCATED, in lenient mode with null; no string byte need be written. -/
def Obligations.SdecMissingBytes : Prop :=
  ∀ (strict : Bool) (s : State) (hi lo : Byte), 2 ≤ s.len.toNat → s.len.toNat ≤ s.params.bufSize →
    s.buf.read 0 = some hi → s.buf.read 1 = some lo → s.len.toNat < 2 + (hi.toNat * 256 + lo.toNat) →
      exec (.sdec strict true) s = .next (s.sdecError strict .malformedInput .null .truncated)

/-- 41_string_decode.md R135: bytes after the declared string are STRING_TRAILING when STR_TRAILING_REJECT = 1, before
any string byte is read; when it is 0 the outcome is that of the same buffer without them. -/
def Obligations.SdecTrailingBytes : Prop :=
  ∀ (strict : Bool) (s : State) (hi lo : Byte), s.len.toNat ≤ s.params.bufSize →
    s.buf.read 0 = some hi → s.buf.read 1 = some lo → 2 + (hi.toNat * 256 + lo.toNat) < s.len.toNat →
    (s.params.strTrailingReject = true →
      exec (.sdec strict true) s = .next (s.sdecError strict .malformedInput .null .stringTrailing)) ∧
    (s.params.strTrailingReject = false →
      exec (.sdec strict true) s =
        mapNext (fun t => { t with len := s.len })
          (exec (.sdec strict true) { s with len := BitVec.ofNat 32 (2 + (hi.toNat * 256 + lo.toNat)) }))

/-- 41_string_decode.md R136, 30_encoding.md R80: with UTF8_VALIDATE = 1, string bytes that do not split into rows of
the table are BAD_UTF8, in lenient mode with null, once the length checks have passed. -/
def Obligations.SdecBadUtf8 : Prop :=
  ∀ (strict : Bool) (s : State) (hi lo : Byte) (text : List Byte), s.len.toNat ≤ s.params.bufSize →
    s.buf.read 0 = some hi → s.buf.read 1 = some lo → text.length = hi.toNat * 256 + lo.toNat →
    2 + text.length ≤ s.len.toNat → (s.params.strTrailingReject = true → s.len.toNat = 2 + text.length) →
    s.Holds 2 text → s.params.utf8Validate = true → ¬SplitsIntoRows text →
      exec (.sdec strict true) s = .next (s.sdecError strict .malformedInput .null .badUtf8)

/-- 41_string_decode.md R136, R137: once the length checks have passed, and with UTF8_VALIDATE = 1 the string bytes
split into rows of the table, SDEC succeeds: SLEN is the declared length, SOFF is 2, VALUE is 0. With
UTF8_VALIDATE = 0 no string byte need be written. -/
def Obligations.SdecSuccess : Prop :=
  ∀ (strict : Bool) (s : State) (hi lo : Byte), s.len.toNat ≤ s.params.bufSize →
    s.buf.read 0 = some hi → s.buf.read 1 = some lo → 2 + (hi.toNat * 256 + lo.toNat) ≤ s.len.toNat →
    (s.params.strTrailingReject = true → s.len.toNat = 2 + (hi.toNat * 256 + lo.toNat)) →
    (s.params.utf8Validate = true →
      ∃ text : List Byte, text.length = hi.toNat * 256 + lo.toNat ∧ s.Holds 2 text ∧ SplitsIntoRows text) →
      exec (.sdec strict true) s =
        .next (s.reported .none .none .none 0 (BitVec.ofNat 16 (hi.toNat * 256 + lo.toNat)) 2)

/-- 70_reset_and_hazards.md R202: with the bytes of the supplied buffer written, SDEC completes, in any state and mode,
and so does VDEC with the at most four bytes it may read written: BUSY is 0 and DONE is 1, and CTRL, LEN, OFFSET, BUF
and the parameters are as before. -/
def Obligations.DecodesCompleteOnWrittenBytes : Prop :=
  ∀ (strict present : Bool) (s : State),
    (s.VarintWritten → ∃ t, exec (.vdec strict present) s = .next t ∧ t.status.busy = false ∧ t.status.done = true ∧
      t.ctrl = s.ctrl ∧ t.len = s.len ∧ t.offset = s.offset ∧ t.buf = s.buf ∧ t.params = s.params) ∧
    (s.BufferWritten → ∃ t, exec (.sdec strict present) s = .next t ∧ t.status.busy = false ∧ t.status.done = true ∧
      t.ctrl = s.ctrl ∧ t.len = s.len ∧ t.offset = s.offset ∧ t.buf = s.buf ∧ t.params = s.params)

/-- 10_state.md R26, 20_memory.md R54, 41_string_decode.md R138: SDEC's outcome depends on nothing of OFFSET and on no
byte of BUF at or above LEN, nor, with UTF8_VALIDATE = 0, above index 1. -/
def Obligations.SdecReadsNeitherOffsetNorBeyondLen : Prop :=
  ∀ (strict present : Bool) (s : State) (off : Word) (m : Memory),
    (∀ j, j < s.len.toNat → (s.params.utf8Validate = false → j < 2) → m.read j = s.buf.read j) →
      exec (.sdec strict present) { s with offset := off, buf := m } =
        mapNext (fun t => { t with offset := off, buf := m }) (exec (.sdec strict present) s)

/-- 70_reset_and_hazards.md R201, 41_string_decode.md R130: SDEC stops the run exactly when it must read a byte never
written: the buffer is present, legal and of at least 2 bytes, and the byte is BUF[0]; or BUF[1]; or, once the length
checks have passed and with UTF8_VALIDATE = 1, the first string byte of BUF[2 .. 1 + n] that holds no value. It never
answers a refusal. -/
def Obligations.SdecStopsExactlyAtAnUnwrittenByte : Prop :=
  ∀ (strict present : Bool) (s : State),
    (∀ r, exec (.sdec strict present) s ≠ .refused r) ∧
    ∀ f, exec (.sdec strict present) s = .fault f ↔
      present = true ∧ 2 ≤ s.len.toNat ∧ s.len.toNat ≤ s.params.bufSize ∧
        ((s.buf.read 0 = none ∧ f = .blockReadUnwritten 0) ∨
          ((s.buf.read 0).isSome = true ∧ s.buf.read 1 = none ∧ f = .blockReadUnwritten 1) ∨
          ∃ hi lo : Byte, s.buf.read 0 = some hi ∧ s.buf.read 1 = some lo ∧ s.params.utf8Validate = true ∧
            2 + (hi.toNat * 256 + lo.toNat) ≤ s.len.toNat ∧
            (s.params.strTrailingReject = true → s.len.toNat = 2 + (hi.toNat * 256 + lo.toNat)) ∧
            ∃ j, j < hi.toNat * 256 + lo.toNat ∧ s.Written 2 (2 + j) ∧ s.buf.read (2 + j) = none ∧
              f = .blockReadUnwritten (2 + j))

/-- 30_encoding.md R80: the check that runs over the bytes once accepts exactly those that split, from the first, into
rows of the table. -/
def Obligations.Utf8CheckIsTheTablesSplit : Prop :=
  ∀ t : List Byte, wellFormedUtf8 t = true ↔ SplitsIntoRows t

/-- 30_encoding.md R80, column "code points": the check accepts exactly the bytes of texts, so of sequences of code points
U+0000 to U+D7FF and U+E000 to U+10FFFF in Unicode's layout. That layout is taken from outside the spec (log 14), and the
spec's table is its own general knowledge (log 21): the statement says that the two agree. -/
def Obligations.Utf8CheckAcceptsExactlyTheBytesOfTexts : Prop :=
  ∀ t : List Byte, wellFormedUtf8 t = true ↔ ∃ cs : List Nat, utf8OfText cs = some t

/-! ### Every operation -/

/-- 60_exceptions.md R184, R187, 40_varint_decode.md R108, 41_string_decode.md R138: a command with GO = 1 that completes
changes STATUS, VALUE, SLEN, SOFF and the internal state, and nothing else: CTRL, LEN, OFFSET, CFG, BUFSZ and every byte
of BUF are as before. -/
def Obligations.OperationsKeepTheirInputs : Prop :=
  ∀ (i : Instr) (s t : State), i.isGo = true → exec i s = .next t →
    t = { s with status := t.status, value := t.value, slen := t.slen, soff := t.soff, walk := none } ∧
    t.status.busy = false ∧ t.status.done = true ∧ ∀ j, t.buf.read j = s.buf.read j

/-- 60_exceptions.md R184, R185: VDEC and SDEC in strict and in lenient mode end alike but for the report: the two next
states differ at most in ERR, SENT and VALUE. Both report the same reason; with none, and with LEN_RANGE, the two states
are the same; with a reason strict mode carries its kind and no sentinel, lenient mode, but for LEN_RANGE, a sentinel and
no error. -/
def Obligations.StrictAndLenientDifferInTheReport : Prop :=
  ∀ (present : Bool) (s t u : State),
    (exec (.vdec true present) s = .next t ∧ exec (.vdec false present) s = .next u) ∨
    (exec (.sdec true present) s = .next t ∧ exec (.sdec false present) s = .next u) →
      u = { t with status := { t.status with err := u.status.err, sent := u.status.sent }, value := u.value } ∧
      t.status.reason = u.status.reason ∧ t.status.err = t.status.reason.kind ∧ t.status.sent = .none ∧
      (t.status.reason = .none ∨ t.status.reason = .lenRange → u = t) ∧
      (t.status.reason ≠ .none → t.status.reason ≠ .lenRange → u.status.err = .none ∧ u.status.sent ≠ .none)

/-- 60_exceptions.md R188: an earlier operation's report, and what its internal state held, change nothing of a later
operation's outcome. -/
def Obligations.EarlierReportsDoNotMatter : Prop :=
  ∀ (i : Instr) (s : State) (status : Status) (value : Word) (slen : BitVec 16) (soff : Word) (walk : Option Walk),
    i.isGo = true →
      exec i { s with status := status, value := value, slen := slen, soff := soff, walk := walk } = exec i s

/-! ### The whole machine -/

/-- 10_state.md R28: STATUS changes by reset, by an accepted GO and by completion, and by no other event; only
completion and reset change VALUE, SLEN and SOFF; and BUSY and DONE do not come to be both 1. -/
def Obligations.StatusHasThreeTransitions : Prop :=
  ∀ s t : State, step s = .next t →
    ((t.status = s.status ∧ t.value = s.value ∧ t.slen = s.slen ∧ t.soff = s.soff) ∨
      (∃ ts, s.turns = .reset :: ts ∧ t.status = ⟨false, false, .none, .none, .none⟩ ∧
        t.value = 0 ∧ t.slen = 0 ∧ t.soff = 0) ∨
      (s.status.busy = false ∧ (∃ w ops, s.pending = .wr 0x00 w :: ops ∧ w.getLsbD 0 = true ∧ t.pending = ops) ∧
        t.status = { s.status with busy := true, done := false } ∧
        t.value = s.value ∧ t.slen = s.slen ∧ t.soff = s.soff) ∨
      (s.status.busy = true ∧ (s.turns = [] ∨ ∃ ts, s.turns = .block :: ts) ∧
        t.status.busy = false ∧ t.status.done = true)) ∧
    (¬(s.status.busy = true ∧ s.status.done = true) → ¬(t.status.busy = true ∧ t.status.done = true))

/-- 20_memory.md R61: while an operation runs, from one step to the next, no host step changes CTRL, LEN, OFFSET, BUF or
the results; so the operation reads stable inputs. -/
def Obligations.InputsAreStableWhileBusy : Prop :=
  ∀ s t : State, step s = .next t → s.status.busy = true → t.status.busy = true →
    t = { s with pending := t.pending, turns := t.turns, noted := t.noted }

/-- The model's invariant (10_state.md R28, R29, R37, 60_exceptions.md R184) is kept by every step from every state that
has it. Its clause on what `walk` holds rests on log 5. -/
def Obligations.EveryStepKeepsTheInvariant : Prop :=
  ∀ s t : State, s.Inv → step s = .next t → t.Inv

/-- The invariant holds right after reset, with any legal parameters. -/
def Obligations.ResetHasTheInvariant : Prop :=
  State.reset.Inv ∧ ∀ p : Params, p.Legal → (State.resetWith p).Inv

/-- 70_reset_and_hazards.md R209: whatever turns are laid down, an operation in progress ends: after at most one step
more than there are turns BUSY is 0, unless the run stopped at a byte never written. Fairness is the model's (log 2). -/
def Obligations.EveryOperationEnds : Prop :=
  ∀ s : State, s.status.busy = true →
    ∃ k, k ≤ s.turns.length + 1 ∧
      ((∃ f, core.run k s = .fault f) ∨ ∃ t : State, core.run k s = .next t ∧ t.status.busy = false)

/-! ### The reference encoders -/

/-- 42_reference_encoders.md R161: an absent and a negative value are InvalidArgument when strict and the empty sequence
when lenient; zero is accepted. -/
def Obligations.EncVarintAbsentAndNegative : Prop :=
  encVarint none true = .error .invalidArgument ∧ encVarint none false = .ok [] ∧
  (∀ v : Int, v < 0 → encVarint (some v) true = .error .invalidArgument ∧ encVarint (some v) false = .ok []) ∧
  ∀ strict, encVarint (some 0) strict = .ok [0x00]

/-- 42_reference_encoders.md R160, 30_encoding.md R77, R166 property 2: the encoding of a value has the least number of
bytes whose 7-bit digits hold it, byte j carries digit j, bit 7 is set on every byte but the last, and the last is not
zero when there are two or more. -/
def Obligations.EncVarintIsCanonical : Prop :=
  ∀ (v : Nat) (strict : Bool), ∃ seq, encVarint (some (v : Int)) strict = .ok seq ∧ 1 ≤ seq.length ∧
    v < 128 ^ seq.length ∧ (2 ≤ seq.length → 128 ^ (seq.length - 1) ≤ v ∧ seq.getLast? ≠ some 0) ∧
    ∀ j, j < seq.length →
      seq[j]? = some (v / 128 ^ j % 128 + if j + 1 < seq.length then 128 else 0)

/-- 42_reference_encoders.md R166 property 1: VDEC of the packed encoding of any value below 2^28, in either mode,
gives the value back. -/
def Obligations.VdecInvertsEncVarint : Prop :=
  ∀ (v : Nat) (strict : Bool) (s : State) (seq : List Nat), v ≤ 268435455 → encVarint (some (v : Int)) true = .ok seq →
    s.Holds 0 (pack seq) → s.len.toNat = (pack seq).length → s.offset = 0 → (pack seq).length ≤ s.params.bufSize →
      exec (.vdec strict true) s = .next (s.reported .none .none .none (BitVec.ofNat 32 v) 0 0)

/-- 42_reference_encoders.md R162: VDEC rejects the packed encoding of every value of 2^28 or more with OVERSIZE. -/
def Obligations.VdecRejectsLongEncodings : Prop :=
  ∀ (v : Nat) (strict : Bool) (s : State) (seq : List Nat), 268435455 < v → encVarint (some (v : Int)) true = .ok seq →
    s.Holds 0 (pack seq) → s.len.toNat = (pack seq).length → s.offset = 0 → (pack seq).length ≤ s.params.bufSize →
      exec (.vdec strict true) s = .next (s.vdecError strict .malformedInput .oversize)

/-- 42_reference_encoders.md R164, R165, R167: text of at most 65535 bytes gives their number, high byte first, and then
the bytes, in either mode; absent text and text with no byte conversion are InvalidArgument when strict and the empty
string or null when lenient; more than 65535 bytes are refused. Text as code points is the model's (log 14). -/
def Obligations.EncStringSentinelsAndRefusal : Prop :=
  (∀ cs u strict, utf8OfText cs = some u → u.length ≤ 65535 →
    encString (some cs) strict =
      .ok (.bytes (BitVec.ofNat 8 (u.length / 256) :: BitVec.ofNat 8 (u.length % 256) :: u))) ∧
  encString none true = .error .invalidArgument ∧ encString none false = .ok .emptyString ∧
  (∀ cs, utf8OfText cs = none →
    encString (some cs) true = .error .invalidArgument ∧ encString (some cs) false = .ok .null) ∧
  ∀ cs u strict, utf8OfText cs = some u → 65535 < u.length → encString (some cs) strict = .error .stringTooLong

/-- 42_reference_encoders.md R166 property 3: SDEC of the encoded text, for every parameter value and mode, gives the
text's bytes back as a view: SLEN is their number, SOFF is 2, and they stand in BUF from index 2 on. The bytes of a
text are Unicode's (log 14). -/
def Obligations.SdecInvertsEncString : Prop :=
  ∀ (cs : List Nat) (u field : List Byte) (strict : Bool) (s : State), utf8OfText cs = some u →
    encString (some cs) true = .ok (.bytes field) → s.Holds 0 field → s.len.toNat = field.length →
    field.length ≤ s.params.bufSize →
      u.length ≤ 65535 ∧ s.Holds 2 u ∧
      exec (.sdec strict true) s = .next (s.reported .none .none .none 0 (BitVec.ofNat 16 u.length) 2)
end

