-- ==== Sys2Proof/Laws/Memory.lean ====
section
/-! SUPPORT. BUF as a canonical list: reading after writing, and that a write keeps the form and the bounds. -/

namespace Sys2Proof.Machine

/-! ### Reading after writing -/

@[simp] theorem Memory.read_nil (i : Nat) : Memory.read [] i = none := rfl

theorem Memory.read_write_same (m : Memory) (i : Nat) (b : Byte) : (m.write i b).read i = some b := by
  induction m with
  | nil => simp [Memory.write, Memory.read]
  | cons c rest ih =>
    simp only [Memory.write]
    split
    · simp [Memory.read]
    · split
      · simp [Memory.read]
      · simp [Memory.read, *]

theorem Memory.read_write_other (m : Memory) {i j : Nat} (b : Byte) (h : j ≠ i) : (m.write i b).read j = m.read j := by
  induction m with
  | nil => simp [Memory.write, Memory.read, h]
  | cons c rest ih =>
    simp only [Memory.write]
    split
    · simp [Memory.read, h]
    · split
      · next hij => subst hij; simp [Memory.read, h]
      · simp only [Memory.read, ih]

/-- A byte of a buffer after a write: the new one at its index, every other as before. -/
theorem Memory.read_write (m : Memory) (i j : Nat) (b : Byte) :
    (m.write i b).read j = if j = i then some b else m.read j := by
  split
  · next h => subst h; exact m.read_write_same j b
  · next h => exact m.read_write_other b h

/-! ### The canonical form -/

/-- In canonical form every index after the first entry's is above it. -/
theorem Memory.wf_cons {c : Host.Cell} {m : Memory} :
    Memory.wf (c :: m) = true ↔ (∀ d ∈ m, c.1 < d.1) ∧ Memory.wf m = true := by
  induction m generalizing c with
  | nil => simp [Memory.wf]
  | cons d rest ih =>
    simp only [Memory.wf, Bool.and_eq_true, decide_eq_true_eq, List.forall_mem_cons]
    constructor
    · rintro ⟨h, hw⟩
      exact ⟨⟨h, fun e he => h.trans ((ih.mp hw).1 e he)⟩, hw⟩
    · rintro ⟨⟨h, -⟩, hw⟩
      exact ⟨h, hw⟩

/-- What a write lists: the written byte and bytes that were listed before. -/
theorem Memory.mem_write {m : Memory} {i : Nat} {b : Byte} {d : Host.Cell} (h : d ∈ m.write i b) :
    d = (i, b) ∨ d ∈ m := by
  induction m with
  | nil => simpa [Memory.write] using h
  | cons c rest ih =>
    simp only [Memory.write] at h
    split at h
    · simpa using h
    · split at h
      · rcases List.mem_cons.mp h with h | h
        · exact .inl h
        · exact .inr (List.mem_cons_of_mem _ h)
      · rcases List.mem_cons.mp h with h | h
        · exact .inr (h ▸ List.mem_cons_self)
        · exact (ih h).imp_right (List.mem_cons_of_mem _)

theorem Memory.wf_write {m : Memory} (i : Nat) (b : Byte) (h : Memory.wf m = true) : Memory.wf (m.write i b) = true := by
  induction m with
  | nil => rfl
  | cons c rest ih =>
    obtain ⟨hlt, hw⟩ := Memory.wf_cons.mp h
    simp only [Memory.write]
    split
    · next hi =>
      exact Memory.wf_cons.mpr ⟨fun d hd => by
        rcases List.mem_cons.mp hd with rfl | hd
        · exact hi
        · exact lt_trans hi (hlt d hd), h⟩
    · split
      · next hi => subst hi; exact Memory.wf_cons.mpr ⟨hlt, hw⟩
      · next h1 h2 =>
        refine Memory.wf_cons.mpr ⟨fun d hd => ?_, ih hw⟩
        rcases Memory.mem_write hd with rfl | hd
        · simp only; omega
        · exact hlt d hd

theorem Memory.within_write {m : Memory} {size i : Nat} (b : Byte) (hi : i < size) (h : Memory.within m size = true) :
    Memory.within (m.write i b) size = true := by
  simp only [Memory.within, List.all_eq_true, decide_eq_true_eq] at h ⊢
  intro d hd
  rcases Memory.mem_write hd with rfl | hd
  · exact hi
  · exact h d hd

/-- No byte is read outside the bounds. -/
theorem Memory.read_none_of_within {m : Memory} {size i : Nat} (h : Memory.within m size = true) (hi : size ≤ i) :
    m.read i = none := by
  induction m with
  | nil => rfl
  | cons c rest ih =>
    simp only [Memory.within, List.all_cons, Bool.and_eq_true, decide_eq_true_eq] at h
    simp only [Memory.read]
    rw [if_neg (by omega)]
    exact ih h.2

/-! ### Sequences of bytes -/

/-- A byte of a buffer after a sequence was written from an index on. -/
theorem Memory.read_writeAll (m : Memory) (i j : Nat) (bs : List Byte) :
    (m.writeAll i bs).read j = if i ≤ j ∧ j < i + bs.length then bs[j - i]? else m.read j := by
  induction bs generalizing m i with
  | nil => simp only [Memory.writeAll, List.length_nil]; rw [if_neg (by omega)]
  | cons b bs ih =>
    simp only [Memory.writeAll, ih, List.length_cons, Memory.read_write]
    by_cases h : j = i
    · subst h
      rw [if_neg (by omega), if_pos rfl, if_pos (by omega)]
      simp
    · by_cases h' : i + 1 ≤ j ∧ j < i + 1 + bs.length
      · rw [if_pos h', if_pos (by omega), show j - i = (j - (i + 1)) + 1 by omega, List.getElem?_cons_succ]
      · rw [if_neg h', if_neg h, if_neg (by omega)]

theorem Memory.wf_writeAll {m : Memory} (i : Nat) (bs : List Byte) (h : Memory.wf m = true) :
    Memory.wf (m.writeAll i bs) = true := by
  induction bs generalizing m i with
  | nil => exact h
  | cons b bs ih => exact ih _ (Memory.wf_write i b h)

end Sys2Proof.Machine
end

