-- ==== Sys2Proof/Laws/State.lean ====
section
/-! SUPPORT. What each field is after each named update of State: one lemma a field an update, so that no proof unfolds
a record update. -/

namespace Sys2Proof.Machine

variable (s : State)

/-! ### Store OP, STRICT and PRESENT (10_state.md R24) -/

@[simp] theorem State.storeCommand_ctrl (op : BitVec 2) (st pr : Bool) : (s.storeCommand op st pr).ctrl = ⟨op, st, pr⟩ := rfl
@[simp] theorem State.storeCommand_len (op : BitVec 2) (st pr : Bool) : (s.storeCommand op st pr).len = s.len := rfl
@[simp] theorem State.storeCommand_offset (op : BitVec 2) (st pr : Bool) : (s.storeCommand op st pr).offset = s.offset := rfl
@[simp] theorem State.storeCommand_status (op : BitVec 2) (st pr : Bool) : (s.storeCommand op st pr).status = s.status := rfl
@[simp] theorem State.storeCommand_value (op : BitVec 2) (st pr : Bool) : (s.storeCommand op st pr).value = s.value := rfl
@[simp] theorem State.storeCommand_slen (op : BitVec 2) (st pr : Bool) : (s.storeCommand op st pr).slen = s.slen := rfl
@[simp] theorem State.storeCommand_soff (op : BitVec 2) (st pr : Bool) : (s.storeCommand op st pr).soff = s.soff := rfl
@[simp] theorem State.storeCommand_params (op : BitVec 2) (st pr : Bool) : (s.storeCommand op st pr).params = s.params := rfl
@[simp] theorem State.storeCommand_buf (op : BitVec 2) (st pr : Bool) : (s.storeCommand op st pr).buf = s.buf := rfl
@[simp] theorem State.storeCommand_walk (op : BitVec 2) (st pr : Bool) : (s.storeCommand op st pr).walk = s.walk := rfl
@[simp] theorem State.storeCommand_pending (op : BitVec 2) (st pr : Bool) : (s.storeCommand op st pr).pending = s.pending := rfl
@[simp] theorem State.storeCommand_turns (op : BitVec 2) (st pr : Bool) : (s.storeCommand op st pr).turns = s.turns := rfl
@[simp] theorem State.storeCommand_noted (op : BitVec 2) (st pr : Bool) : (s.storeCommand op st pr).noted = s.noted := rfl

/-! ### An accepted GO (10_state.md R24, R28) -/

@[simp] theorem State.startOperation_ctrl : (s.startOperation).ctrl = s.ctrl := rfl
@[simp] theorem State.startOperation_len : (s.startOperation).len = s.len := rfl
@[simp] theorem State.startOperation_offset : (s.startOperation).offset = s.offset := rfl
@[simp] theorem State.startOperation_status : (s.startOperation).status = s.status.started := rfl
@[simp] theorem State.startOperation_value : (s.startOperation).value = s.value := rfl
@[simp] theorem State.startOperation_slen : (s.startOperation).slen = s.slen := rfl
@[simp] theorem State.startOperation_soff : (s.startOperation).soff = s.soff := rfl
@[simp] theorem State.startOperation_params : (s.startOperation).params = s.params := rfl
@[simp] theorem State.startOperation_buf : (s.startOperation).buf = s.buf := rfl
@[simp] theorem State.startOperation_walk : (s.startOperation).walk = some (Walk.start s.offset) := rfl
@[simp] theorem State.startOperation_pending : (s.startOperation).pending = s.pending := rfl
@[simp] theorem State.startOperation_turns : (s.startOperation).turns = s.turns := rfl
@[simp] theorem State.startOperation_noted : (s.startOperation).noted = s.noted := rfl

/-! ### The completion write (60_exceptions.md R184) -/

@[simp] theorem State.complete_ctrl (c : Completion) : (s.complete c).ctrl = s.ctrl := rfl
@[simp] theorem State.complete_len (c : Completion) : (s.complete c).len = s.len := rfl
@[simp] theorem State.complete_offset (c : Completion) : (s.complete c).offset = s.offset := rfl
@[simp] theorem State.complete_status (c : Completion) : (s.complete c).status = c.status := rfl
@[simp] theorem State.complete_value (c : Completion) : (s.complete c).value = c.value := rfl
@[simp] theorem State.complete_slen (c : Completion) : (s.complete c).slen = c.slen := rfl
@[simp] theorem State.complete_soff (c : Completion) : (s.complete c).soff = c.soff := rfl
@[simp] theorem State.complete_params (c : Completion) : (s.complete c).params = s.params := rfl
@[simp] theorem State.complete_buf (c : Completion) : (s.complete c).buf = s.buf := rfl
@[simp] theorem State.complete_walk (c : Completion) : (s.complete c).walk = none := rfl
@[simp] theorem State.complete_pending (c : Completion) : (s.complete c).pending = s.pending := rfl
@[simp] theorem State.complete_turns (c : Completion) : (s.complete c).turns = s.turns := rfl
@[simp] theorem State.complete_noted (c : Completion) : (s.complete c).noted = s.noted := rfl

/-! ### The host notes a read (30_encoding.md R81) -/

@[simp] theorem State.note_ctrl (r : HostRead) : (s.note r).ctrl = s.ctrl := rfl
@[simp] theorem State.note_len (r : HostRead) : (s.note r).len = s.len := rfl
@[simp] theorem State.note_offset (r : HostRead) : (s.note r).offset = s.offset := rfl
@[simp] theorem State.note_status (r : HostRead) : (s.note r).status = s.status := rfl
@[simp] theorem State.note_value (r : HostRead) : (s.note r).value = s.value := rfl
@[simp] theorem State.note_slen (r : HostRead) : (s.note r).slen = s.slen := rfl
@[simp] theorem State.note_soff (r : HostRead) : (s.note r).soff = s.soff := rfl
@[simp] theorem State.note_params (r : HostRead) : (s.note r).params = s.params := rfl
@[simp] theorem State.note_buf (r : HostRead) : (s.note r).buf = s.buf := rfl
@[simp] theorem State.note_walk (r : HostRead) : (s.note r).walk = s.walk := rfl
@[simp] theorem State.note_pending (r : HostRead) : (s.note r).pending = s.pending := rfl
@[simp] theorem State.note_turns (r : HostRead) : (s.note r).turns = s.turns := rfl
@[simp] theorem State.note_noted (r : HostRead) : (s.note r).noted = r :: s.noted := rfl

/-! ### Reset (70_reset_and_hazards.md R200) -/

@[simp] theorem State.resetBlock_ctrl : (s.resetBlock).ctrl = Ctrl.reset := rfl
@[simp] theorem State.resetBlock_len : (s.resetBlock).len = 0 := rfl
@[simp] theorem State.resetBlock_offset : (s.resetBlock).offset = 0 := rfl
@[simp] theorem State.resetBlock_status : (s.resetBlock).status = Status.reset := rfl
@[simp] theorem State.resetBlock_value : (s.resetBlock).value = 0 := rfl
@[simp] theorem State.resetBlock_slen : (s.resetBlock).slen = 0 := rfl
@[simp] theorem State.resetBlock_soff : (s.resetBlock).soff = 0 := rfl
@[simp] theorem State.resetBlock_params : (s.resetBlock).params = s.params := rfl
@[simp] theorem State.resetBlock_buf : (s.resetBlock).buf = [] := rfl
@[simp] theorem State.resetBlock_walk : (s.resetBlock).walk = none := rfl
@[simp] theorem State.resetBlock_pending : (s.resetBlock).pending = s.pending := rfl
@[simp] theorem State.resetBlock_turns : (s.resetBlock).turns = s.turns := rfl
@[simp] theorem State.resetBlock_noted : (s.resetBlock).noted = s.noted := rfl

/-! ### The host's coming transactions -/

@[simp] theorem State.setPending_ctrl (ops : List HostOp) : (s.setPending ops).ctrl = s.ctrl := rfl
@[simp] theorem State.setPending_len (ops : List HostOp) : (s.setPending ops).len = s.len := rfl
@[simp] theorem State.setPending_offset (ops : List HostOp) : (s.setPending ops).offset = s.offset := rfl
@[simp] theorem State.setPending_status (ops : List HostOp) : (s.setPending ops).status = s.status := rfl
@[simp] theorem State.setPending_value (ops : List HostOp) : (s.setPending ops).value = s.value := rfl
@[simp] theorem State.setPending_slen (ops : List HostOp) : (s.setPending ops).slen = s.slen := rfl
@[simp] theorem State.setPending_soff (ops : List HostOp) : (s.setPending ops).soff = s.soff := rfl
@[simp] theorem State.setPending_params (ops : List HostOp) : (s.setPending ops).params = s.params := rfl
@[simp] theorem State.setPending_buf (ops : List HostOp) : (s.setPending ops).buf = s.buf := rfl
@[simp] theorem State.setPending_walk (ops : List HostOp) : (s.setPending ops).walk = s.walk := rfl
@[simp] theorem State.setPending_pending (ops : List HostOp) : (s.setPending ops).pending = ops := rfl
@[simp] theorem State.setPending_turns (ops : List HostOp) : (s.setPending ops).turns = s.turns := rfl
@[simp] theorem State.setPending_noted (ops : List HostOp) : (s.setPending ops).noted = s.noted := rfl

/-! ### The coming turns -/

@[simp] theorem State.setTurns_ctrl (ts : List Turn) : (s.setTurns ts).ctrl = s.ctrl := rfl
@[simp] theorem State.setTurns_len (ts : List Turn) : (s.setTurns ts).len = s.len := rfl
@[simp] theorem State.setTurns_offset (ts : List Turn) : (s.setTurns ts).offset = s.offset := rfl
@[simp] theorem State.setTurns_status (ts : List Turn) : (s.setTurns ts).status = s.status := rfl
@[simp] theorem State.setTurns_value (ts : List Turn) : (s.setTurns ts).value = s.value := rfl
@[simp] theorem State.setTurns_slen (ts : List Turn) : (s.setTurns ts).slen = s.slen := rfl
@[simp] theorem State.setTurns_soff (ts : List Turn) : (s.setTurns ts).soff = s.soff := rfl
@[simp] theorem State.setTurns_params (ts : List Turn) : (s.setTurns ts).params = s.params := rfl
@[simp] theorem State.setTurns_buf (ts : List Turn) : (s.setTurns ts).buf = s.buf := rfl
@[simp] theorem State.setTurns_walk (ts : List Turn) : (s.setTurns ts).walk = s.walk := rfl
@[simp] theorem State.setTurns_pending (ts : List Turn) : (s.setTurns ts).pending = s.pending := rfl
@[simp] theorem State.setTurns_turns (ts : List Turn) : (s.setTurns ts).turns = ts := rfl
@[simp] theorem State.setTurns_noted (ts : List Turn) : (s.setTurns ts).noted = s.noted := rfl

@[simp] theorem State.setPending_pending_self : s.setPending s.pending = s := rfl
@[simp] theorem State.setTurns_turns_self : s.setTurns s.turns = s := rfl
@[simp] theorem State.setTurns_latchedCommand (ts : List Turn) : (s.setTurns ts).latchedCommand = s.latchedCommand := rfl

/-! ### The STATUS transitions of 10_state.md R28 -/

@[simp] theorem Status.started_busy (st : Status) : st.started.busy = true := rfl
@[simp] theorem Status.started_done (st : Status) : st.started.done = false := rfl
@[simp] theorem Status.started_err (st : Status) : st.started.err = st.err := rfl
@[simp] theorem Status.started_sent (st : Status) : st.started.sent = st.sent := rfl
@[simp] theorem Status.started_reason (st : Status) : st.started.reason = st.reason := rfl
@[simp] theorem Completion.status_busy (c : Completion) : c.status.busy = false := rfl
@[simp] theorem Completion.status_done (c : Completion) : c.status.done = true := rfl
@[simp] theorem Completion.status_err (c : Completion) : c.status.err = c.err := rfl
@[simp] theorem Completion.status_sent (c : Completion) : c.status.sent = c.sent := rfl
@[simp] theorem Completion.status_reason (c : Completion) : c.status.reason = c.reason := rfl

end Sys2Proof.Machine
end

