-- ==== Sys2Proof/Laws/Ops.lean ====
section
/-! SUPPORT. Each shared operation once: everything it can do, for later proofs to cite instead of unfolding it. -/

namespace Sys2Proof.Machine

/-! ### The register space -/

theorem State.writeCtrl_busy {s : State} (w : Word) (h : s.status.busy = true) : s.writeCtrl w = s := by
  simp [State.writeCtrl, h]

/-- A CTRL write to an idle block (10_state.md R24). -/
theorem State.writeCtrl_idle {s : State} (w : Word) (h : s.status.busy = false) :
    s.writeCtrl w = if cmdGo w then (s.storeCommand (cmdOp w) (cmdStrict w) (cmdPresent w)).startOperation
      else s.storeCommand (cmdOp w) (cmdStrict w) (cmdPresent w) := by
  simp [State.writeCtrl, h]

theorem State.writeReg_ctrl (s : State) (w : Word) : s.writeReg 0x00 w = s.writeCtrl w := rfl

/-- A write to LEN of an idle block (10_state.md R25). -/
theorem State.writeReg_len {s : State} (w : Word) (h : s.status.busy = false) :
    s.writeReg 0x04 w = { s with len := w } := if_neg (by simp [h])

/-- A write to OFFSET of an idle block (10_state.md R26). -/
theorem State.writeReg_offset {s : State} (w : Word) (h : s.status.busy = false) :
    s.writeReg 0x08 w = { s with offset := w } := if_neg (by simp [h])

/-- A write at any other offset has no effect (10_state.md R34, R35). -/
theorem State.writeReg_other {s : State} {off : RegOffset} (w : Word) (h0 : off ≠ 0x00) (h4 : off ≠ 0x04)
    (h8 : off ≠ 0x08) : s.writeReg off w = s := by
  unfold State.writeReg
  split
  · next h => exact absurd (BitVec.eq_of_toNat_eq h) h0
  · next h => exact absurd (BitVec.eq_of_toNat_eq h) h4
  · next h => exact absurd (BitVec.eq_of_toNat_eq h) h8
  · rfl

/-- While BUSY = 1 no register write has an effect (70_reset_and_hazards.md R205). -/
theorem State.writeReg_busy {s : State} (off : RegOffset) (w : Word) (h : s.status.busy = true) :
    s.writeReg off w = s := by
  unfold State.writeReg
  split <;> simp [h, State.writeCtrl_busy]

/-- Everything a register write can do. -/
theorem State.writeReg_cases (s : State) (off : RegOffset) (w : Word) :
    s.writeReg off w = s ∨
    (s.status.busy = false ∧ off = 0x00 ∧ cmdGo w = true ∧
      s.writeReg off w = (s.storeCommand (cmdOp w) (cmdStrict w) (cmdPresent w)).startOperation) ∨
    (s.status.busy = false ∧ off = 0x00 ∧ cmdGo w = false ∧
      s.writeReg off w = s.storeCommand (cmdOp w) (cmdStrict w) (cmdPresent w)) ∨
    (s.status.busy = false ∧ off = 0x04 ∧ s.writeReg off w = { s with len := w }) ∨
    (s.status.busy = false ∧ off = 0x08 ∧ s.writeReg off w = { s with offset := w }) := by
  cases hb : s.status.busy with
  | true => exact .inl (State.writeReg_busy off w hb)
  | false =>
    by_cases h0 : off = 0x00
    · subst h0
      rw [State.writeReg_ctrl, State.writeCtrl_idle w hb]
      cases hg : cmdGo w with
      | false => exact .inr (.inr (.inl ⟨rfl, rfl, rfl, rfl⟩))
      | true => exact .inr (.inl ⟨rfl, rfl, rfl, rfl⟩)
    · by_cases h4 : off = 0x04
      · exact .inr (.inr (.inr (.inl ⟨rfl, h4, h4 ▸ State.writeReg_len w hb⟩)))
      · by_cases h8 : off = 0x08
        · exact .inr (.inr (.inr (.inr ⟨rfl, h8, h8 ▸ State.writeReg_offset w hb⟩)))
        · exact .inl (State.writeReg_other w h0 h4 h8)

/-- A read at an unmapped or unaligned offset gives 0 (10_state.md R34). -/
theorem State.readReg_unmapped (s : State) {off : RegOffset}
    (h : off ∉ ([0x00, 0x04, 0x08, 0x0C, 0x10, 0x14, 0x18, 0x1C, 0x20] : List RegOffset)) : s.readReg off = 0 := by
  simp only [List.mem_cons, List.not_mem_nil, or_false, not_or] at h
  unfold State.readReg
  split
  · next e => exact absurd (BitVec.eq_of_toNat_eq e) h.1
  · next e => exact absurd (BitVec.eq_of_toNat_eq e) h.2.1
  · next e => exact absurd (BitVec.eq_of_toNat_eq e) h.2.2.1
  · next e => exact absurd (BitVec.eq_of_toNat_eq e) h.2.2.2.1
  · next e => exact absurd (BitVec.eq_of_toNat_eq e) h.2.2.2.2.1
  · next e => exact absurd (BitVec.eq_of_toNat_eq e) h.2.2.2.2.2.1
  · next e => exact absurd (BitVec.eq_of_toNat_eq e) h.2.2.2.2.2.2.1
  · next e => exact absurd (BitVec.eq_of_toNat_eq e) h.2.2.2.2.2.2.2.1
  · next e => exact absurd (BitVec.eq_of_toNat_eq e) h.2.2.2.2.2.2.2.2
  · rfl

/-! ### BUF -/

/-- Everything a host byte write can do (20_memory.md R52). -/
theorem State.hostWriteBuf_cases (s : State) (i : Nat) (b : Byte) :
    ((s.status.busy = true ∨ s.params.bufSize ≤ i) ∧ s.hostWriteBuf i b = s) ∨
    (s.status.busy = false ∧ i < s.params.bufSize ∧ s.hostWriteBuf i b = { s with buf := s.buf.write i b }) := by
  unfold State.hostWriteBuf
  split
  · next h => exact .inl ⟨.inl h, rfl⟩
  · next h =>
    split
    · next h' => exact .inl ⟨.inr h', rfl⟩
    · next h' => exact .inr ⟨by simpa using h, by omega, rfl⟩

theorem State.blockRead_ok {s : State} {i : Nat} {b : Byte} : s.blockRead i = .ok b ↔ s.buf.read i = some b := by
  unfold State.blockRead
  cases s.buf.read i <;> simp

theorem State.blockRead_error {s : State} {i : Nat} {f : Fault} :
    s.blockRead i = .error f ↔ s.buf.read i = none ∧ f = .blockReadUnwritten i := by
  unfold State.blockRead
  cases s.buf.read i <;> simp [eq_comm]

theorem State.holds_nil (s : State) (i : Nat) : s.Holds i [] := by intro j h; simp at h

theorem State.holds_cons {s : State} {i : Nat} {b : Byte} {bs : List Byte} :
    s.Holds i (b :: bs) ↔ s.buf.read i = some b ∧ s.Holds (i + 1) bs := by
  constructor
  · intro h
    refine ⟨by simpa using h 0 (by simp), fun j hj => ?_⟩
    have := h (j + 1) (by simpa using hj)
    rw [show i + 1 + j = i + (j + 1) by omega, this, List.getElem?_cons_succ]
  · rintro ⟨h0, h⟩ j hj
    cases j with
    | zero => simpa using h0
    | succ j =>
      rw [show i + (j + 1) = i + 1 + j by omega, h j (by simpa using hj), List.getElem?_cons_succ]

theorem State.holds_append {s : State} {i : Nat} {bs cs : List Byte} :
    s.Holds i (bs ++ cs) ↔ s.Holds i bs ∧ s.Holds (i + bs.length) cs := by
  induction bs generalizing i with
  | nil => exact ⟨fun h => ⟨s.holds_nil i, h⟩, fun h => h.2⟩
  | cons b bs ih =>
    rw [List.cons_append, State.holds_cons, State.holds_cons, ih, and_assoc, List.length_cons,
      show i + 1 + bs.length = i + (bs.length + 1) by omega]

/-- A run of block reads gives the bytes BUF holds there, and only if they are all written. -/
theorem State.blockReadRun_ok {s : State} {i n : Nat} {t : List Byte} :
    s.blockReadRun i n = .ok t ↔ t.length = n ∧ s.Holds i t := by
  induction n generalizing i t with
  | zero =>
    simp only [State.blockReadRun, Except.ok.injEq]
    constructor
    · rintro rfl; exact ⟨rfl, s.holds_nil i⟩
    · rintro ⟨h, -⟩; exact (List.length_eq_zero_iff.mp h).symm
  | succ n ih =>
    simp only [State.blockReadRun]
    cases hb : s.blockRead i with
    | error f =>
      simp only [reduceCtorEq, false_iff]
      rintro ⟨hl, hh⟩
      obtain ⟨b, bs, rfl⟩ := List.exists_cons_of_length_eq_add_one hl
      have h := (State.holds_cons.mp hh).1
      rw [(State.blockRead_error.mp hb).1] at h
      cases h
    | ok b =>
      have hb' := State.blockRead_ok.mp hb
      cases hr : s.blockReadRun (i + 1) n with
      | error f =>
        simp only [reduceCtorEq, false_iff]
        rintro ⟨hl, hh⟩
        obtain ⟨c, bs, rfl⟩ := List.exists_cons_of_length_eq_add_one hl
        have := ih.mpr ⟨by simpa using hl, (State.holds_cons.mp hh).2⟩
        rw [hr] at this; cases this
      | ok bs =>
        obtain ⟨hl, hh⟩ := ih.mp hr
        simp only [Except.ok.injEq]
        constructor
        · rintro rfl; exact ⟨by simp [hl], State.holds_cons.mpr ⟨hb', hh⟩⟩
        · rintro ⟨hl', hh'⟩
          obtain ⟨c, cs, rfl⟩ := List.exists_cons_of_length_eq_add_one hl'
          obtain ⟨hc, hcs⟩ := State.holds_cons.mp hh'
          have := ih.mpr ⟨by simpa using hl', hcs⟩
          rw [hr] at this
          injection this with this
          rw [hb'] at hc
          injection hc with hc
          rw [hc, this]

/-- A run of block reads stops exactly at its first byte never written. -/
theorem State.blockReadRun_error {s : State} {i n : Nat} {f : Fault} :
    s.blockReadRun i n = .error f ↔
      ∃ j, j < n ∧ s.Written i (i + j) ∧ s.buf.read (i + j) = none ∧ f = .blockReadUnwritten (i + j) := by
  induction n generalizing i with
  | zero => simp [State.blockReadRun]
  | succ n ih =>
    simp only [State.blockReadRun]
    cases hb : s.blockRead i with
    | error g =>
      obtain ⟨hn, rfl⟩ := State.blockRead_error.mp hb
      simp only [Except.error.injEq]
      constructor
      · rintro rfl
        exact ⟨0, by omega, fun j h1 h2 => by omega, hn, rfl⟩
      · rintro ⟨j, -, hw, -, rfl⟩
        rcases Nat.eq_zero_or_pos j with rfl | hj
        · rfl
        · have := hw i (by omega) le_rfl
          rw [hn] at this; cases this
    | ok b =>
      have hi := State.blockRead_ok.mp hb
      have shift :
          (∃ j, j < n ∧ s.Written (i + 1) (i + 1 + j) ∧ s.buf.read (i + 1 + j) = none ∧
            f = .blockReadUnwritten (i + 1 + j)) ↔
          ∃ j, j < n + 1 ∧ s.Written i (i + j) ∧ s.buf.read (i + j) = none ∧ f = .blockReadUnwritten (i + j) := by
        constructor
        · rintro ⟨j, hj, hw, hn, rfl⟩
          rw [show i + 1 + j = i + (j + 1) by omega] at *
          refine ⟨j + 1, by omega, fun k h1 h2 => ?_, hn, rfl⟩
          rcases Nat.eq_or_lt_of_le h2 with rfl | h2
          · simp [hi]
          · exact hw k h1 h2
        · rintro ⟨j, hj, hw, hn, rfl⟩
          cases j with
          | zero => rw [Nat.add_zero, hi] at hn; cases hn
          | succ j =>
            rw [show i + (j + 1) = i + 1 + j by omega] at *
            exact ⟨j, by omega, fun k h1 h2 => hw k h1 (by omega), hn, rfl⟩
      rw [← shift, ← ih]
      cases s.blockReadRun (i + 1) n <;> simp

/-- A run of block reads depends on the bytes it reads alone. -/
theorem State.blockReadRun_congr {s t : State} {i n : Nat}
    (h : ∀ j, i ≤ j → j < i + n → t.buf.read j = s.buf.read j) : t.blockReadRun i n = s.blockReadRun i n := by
  induction n generalizing i with
  | zero => rfl
  | succ n ih =>
    have h0 : t.blockRead i = s.blockRead i := by
      simp only [State.blockRead, h i le_rfl (by omega)]
    have h1 := ih fun j h1 h2 => h j (Nat.le_of_succ_le h1) (by omega)
    simp only [State.blockReadRun, h0, h1]

end Sys2Proof.Machine
end

