-- ==== Sys2Proof/Laws/Text.lean ====
section
/-! SUPPORT. What SDEC can do: its ends, its faults, the bytes it depends on; and what the UTF-8 check consumes. -/

namespace Sys2Proof.Machine

/-- Everything SDEC can answer: the pre-check's failure, the fault of a byte never written, or the completion of the
decode's result. It never answers a refusal. -/
theorem execSdec_cases (strict present : Bool) (s : State) :
    (s.lenOutOfRange present = true ∧ execSdec strict present s = .next (s.complete (failPre .lenRange))) ∨
    (s.lenOutOfRange present = false ∧
      ((∃ f, sdecResult s present = .error f ∧ execSdec strict present s = .fault f) ∨
        ∃ r, sdecResult s present = .ok r ∧ execSdec strict present s = .next (s.complete (sdecCompletion strict r)))) := by
  unfold execSdec
  split
  · next h => exact .inl ⟨h, rfl⟩
  · next h =>
    refine .inr ⟨by simpa using h, ?_⟩
    cases sdecResult s present with
    | error f => exact .inl ⟨f, rfl, rfl⟩
    | ok r => exact .inr ⟨r, rfl, rfl⟩

/-- SDEC with its result known. -/
theorem execSdec_of_result {strict present : Bool} {s : State} {r : Except Reason (BitVec 16)}
    (hl : s.lenOutOfRange present = false) (h : sdecResult s present = .ok r) :
    execSdec strict present s = .next (s.complete (sdecCompletion strict r)) := by
  simp [execSdec, hl, h]

/-- A completed SDEC is a completion write, and nothing else (60_exceptions.md R184). -/
theorem execSdec_next {strict present : Bool} {s t : State} (h : execSdec strict present s = .next t) :
    ∃ c, t = s.complete c := by
  rcases execSdec_cases strict present s with ⟨-, e⟩ | ⟨-, ⟨f, -, e⟩ | ⟨r, -, e⟩⟩
  · exact ⟨_, by rw [e] at h; injection h with h; exact h.symm⟩
  · rw [e] at h; cases h
  · exact ⟨_, by rw [e] at h; injection h with h; exact h.symm⟩

/-- The declared length, high byte first (41_string_decode.md R133). -/
theorem declaredLength_toNat (hi lo : Byte) : (declaredLength hi lo).toNat = hi.toNat * 256 + lo.toNat := by
  have h1 := hi.isLt
  have h2 := lo.isLt
  have e : hi.toNat <<< 8 ||| lo.toNat = hi.toNat * 256 + lo.toNat := by
    rw [← Nat.shiftLeft_add_eq_or_of_lt (by omega), Nat.shiftLeft_eq]
  simp only [declaredLength, BitVec.toNat_or, BitVec.toNat_shiftLeft, BitVec.toNat_setWidth]
  rw [Nat.mod_eq_of_lt (a := hi.toNat) (by omega), Nat.mod_eq_of_lt (a := lo.toNat) (by omega),
    Nat.mod_eq_of_lt (by rw [Nat.shiftLeft_eq]; omega), e]

/-- SDEC's result once it has read the prefix. -/
theorem sdecResult_of_prefix {s : State} {hi lo : Byte} (hl : 2 ≤ s.len.toNat) (h0 : s.buf.read 0 = some hi)
    (h1 : s.buf.read 1 = some lo) : sdecResult s true = sdecText s (declaredLength hi lo) := by
  rw [sdecResult, if_neg (by simp), if_neg (by omega), State.blockRead_ok.mpr h0, State.blockRead_ok.mpr h1]

/-- The checks on the text stop only at a string byte never written, once the length checks have passed and with
UTF8_VALIDATE = 1. -/
theorem sdecText_error {s : State} {n : BitVec 16} {f : Fault} :
    sdecText s n = .error f ↔
      2 + n.toNat ≤ s.len.toNat ∧ (s.params.strTrailingReject = true → s.len.toNat = 2 + n.toNat) ∧
        s.params.utf8Validate = true ∧ s.blockReadRun 2 n.toNat = .error f := by
  unfold sdecText
  split
  · next h => simp only [reduceCtorEq, false_iff]; omega
  · next h =>
    split
    · next h' =>
      simp only [reduceCtorEq, false_iff]
      rintro ⟨-, he, -⟩
      have := he h'.1
      omega
    · next h' =>
      have h1 : 2 + n.toNat ≤ s.len.toNat := by omega
      have h2 : s.params.strTrailingReject = true → s.len.toNat = 2 + n.toNat := fun ht =>
        Nat.le_antisymm (Nat.not_lt.mp fun hl => h' ⟨ht, hl⟩) h1
      split
      · next hu =>
        cases hr : s.blockReadRun 2 n.toNat with
        | error g => simp only [h1, hu, true_and, and_iff_right h2, Except.error.injEq]
        | ok t => simp only [reduceCtorEq, and_false, iff_false]; split <;> simp
      · next hu => simp [hu]

/-! ### The UTF-8 check -/

/-- What a row takes off the front: a code-unit sequence that fits it. -/
theorem takeRow_eq_some {row : List ByteRange} {t rest : List Byte} :
    takeRow row t = some rest ↔
      ∃ p, List.Forall₂ (fun (r : ByteRange) (b : Byte) => r.lo ≤ b ∧ b ≤ r.hi) row p ∧ t = p ++ rest := by
  induction row generalizing t with
  | nil =>
    simp only [takeRow, Option.some.injEq]
    constructor
    · rintro rfl; exact ⟨[], .nil, rfl⟩
    · rintro ⟨p, hp, rfl⟩; cases hp; rfl
  | cons r rs ih =>
    cases t with
    | nil =>
      simp only [takeRow, reduceCtorEq, false_iff]
      rintro ⟨p, hp, e⟩
      cases hp; simp at e
    | cons b bs =>
      simp only [takeRow]
      cases hb : r.holds b with
      | true =>
        rw [if_pos rfl, ih]
        simp only [ByteRange.holds, Bool.and_eq_true, decide_eq_true_eq] at hb
        constructor
        · rintro ⟨p, hp, rfl⟩; exact ⟨b :: p, .cons hb hp, rfl⟩
        · rintro ⟨p, hp, e⟩
          cases hp with
          | cons h hp =>
            injection e with e1 e2
            exact ⟨_, hp, e2⟩
      | false =>
        rw [if_neg (by simp)]
        simp only [ByteRange.holds, Bool.and_eq_false_iff, decide_eq_false_iff_not] at hb
        simp only [reduceCtorEq, false_iff]
        rintro ⟨p, hp, e⟩
        cases hp with
        | cons h hp =>
          injection e with e1 e2
          subst e1
          rcases hb with hb | hb
          · exact hb h.1
          · exact hb h.2

/-- What one code point takes off the front is a sequence of a row of the table. -/
theorem takeCodePoint_some {t rest : List Byte} (h : takeCodePoint t = some rest) :
    ∃ row ∈ utf8Rows, ∃ p,
      List.Forall₂ (fun (r : ByteRange) (b : Byte) => r.lo ≤ b ∧ b ≤ r.hi) row p ∧ t = p ++ rest := by
  obtain ⟨row, hr, hrow⟩ := List.exists_of_findSome?_eq_some h
  exact ⟨row, hr, takeRow_eq_some.mp hrow⟩

end Sys2Proof.Machine
end

