-- ==== Sys2Proof/Laws/Varint.lean ====
section
/-! SUPPORT. What VDEC can do: its ends, its faults, the bytes it depends on, and the digits it adds up. -/

namespace Sys2Proof.Machine

/-- Everything VDEC can answer: the pre-check's failure, the fault of a byte never written, or the completion of the
decode's result. It never answers a refusal. -/
theorem execVdec_cases (strict present : Bool) (s : State) :
    (s.lenOutOfRange present = true ∧ execVdec strict present s = .next (s.complete (failPre .lenRange))) ∨
    (s.lenOutOfRange present = false ∧
      ((∃ f, vdecResult s present = .error f ∧ execVdec strict present s = .fault f) ∨
        ∃ r, vdecResult s present = .ok r ∧ execVdec strict present s = .next (s.complete (vdecCompletion strict r)))) := by
  unfold execVdec
  split
  · next h => exact .inl ⟨h, rfl⟩
  · next h =>
    refine .inr ⟨by simpa using h, ?_⟩
    cases vdecResult s present with
    | error f => exact .inl ⟨f, rfl, rfl⟩
    | ok r => exact .inr ⟨r, rfl, rfl⟩

/-- VDEC with its result known. -/
theorem execVdec_of_result {strict present : Bool} {s : State} {r : Except Reason Word}
    (hl : s.lenOutOfRange present = false) (h : vdecResult s present = .ok r) :
    execVdec strict present s = .next (s.complete (vdecCompletion strict r)) := by
  simp [execVdec, hl, h]

/-- A completed VDEC is a completion write, and nothing else (60_exceptions.md R184). -/
theorem execVdec_next {strict present : Bool} {s t : State} (h : execVdec strict present s = .next t) :
    ∃ c, t = s.complete c := by
  rcases execVdec_cases strict present s with ⟨-, e⟩ | ⟨-, ⟨f, -, e⟩ | ⟨r, -, e⟩⟩
  · exact ⟨_, by rw [e] at h; injection h with h; exact h.symm⟩
  · rw [e] at h; cases h
  · exact ⟨_, by rw [e] at h; injection h with h; exact h.symm⟩

/-! ### One more byte of the loop -/

/-- The index after a byte below LEN does not wrap. -/
theorem Walk.take_i_toNat {w : Walk} {b : Byte} {len : Word} (h : w.i.toNat < len.toNat) :
    (w.take b).i.toNat = w.i.toNat + 1 := by
  have := len.isLt
  simp only [Walk.take, BitVec.toNat_add]
  rw [show (1 : Word).toNat = 1 from rfl, Nat.mod_eq_of_lt (by omega)]

theorem readDigits_more {s : State} {left : Nat} {w : Walk} {b : Byte} (hi : w.i.toNat < s.len.toNat)
    (hb : s.buf.read w.i.toNat = some b) (hm : b.getLsbD 7 = true) :
    readDigits s (left + 1) w = readDigits s left (w.take b) := by
  rw [readDigits, if_neg (by rw [BitVec.le_def]; omega), State.blockRead_ok.mpr hb]
  simp [moreFollow, hm]

theorem readDigits_end {s : State} {left : Nat} {w : Walk} (hi : s.len.toNat ≤ w.i.toNat) :
    readDigits s (left + 1) w = .ok (.error .truncated) := by
  rw [readDigits, if_pos (by rw [BitVec.le_def]; exact hi)]

theorem readDigits_unwritten {s : State} {left : Nat} {w : Walk} (hi : w.i.toNat < s.len.toNat)
    (hb : s.buf.read w.i.toNat = none) : readDigits s (left + 1) w = .error (.blockReadUnwritten w.i.toNat) := by
  rw [readDigits, if_neg (by rw [BitVec.le_def]; omega), State.blockRead_error.mpr ⟨hb, rfl⟩]

theorem readDigits_last {s : State} {left : Nat} {w : Walk} {b : Byte} (hi : w.i.toNat < s.len.toNat)
    (hb : s.buf.read w.i.toNat = some b) (hm : b.getLsbD 7 = false) :
    readDigits s (left + 1) w =
      if w.i.toNat + 1 = s.len.toNat then .ok (.ok (w.take b).acc) else .ok (.error .trailingBytes) := by
  rw [readDigits, if_neg (by rw [BitVec.le_def]; omega), State.blockRead_ok.mpr hb]
  have := Walk.take_i_toNat (b := b) hi
  simp only [moreFollow, hm, Bool.false_eq_true, if_false, ne_eq, ite_not]
  by_cases h : w.i.toNat + 1 = s.len.toNat
  · rw [if_pos h, if_pos (BitVec.eq_of_toNat_eq (by omega))]
  · rw [if_neg h, if_neg (fun e => h (by rw [← this, e]))]

/-- Everything the loop can do with a byte left to read. -/
theorem readDigits_cases (s : State) (left : Nat) (w : Walk) :
    (s.len.toNat ≤ w.i.toNat ∧ readDigits s (left + 1) w = .ok (.error .truncated)) ∨
    (w.i.toNat < s.len.toNat ∧ s.buf.read w.i.toNat = none ∧
      readDigits s (left + 1) w = .error (.blockReadUnwritten w.i.toNat)) ∨
    (∃ b, w.i.toNat < s.len.toNat ∧ s.buf.read w.i.toNat = some b ∧ b.getLsbD 7 = true ∧
      readDigits s (left + 1) w = readDigits s left (w.take b)) ∨
    (∃ b, w.i.toNat < s.len.toNat ∧ s.buf.read w.i.toNat = some b ∧ b.getLsbD 7 = false ∧
      readDigits s (left + 1) w =
        if w.i.toNat + 1 = s.len.toNat then .ok (.ok (w.take b).acc) else .ok (.error .trailingBytes)) := by
  by_cases hi : s.len.toNat ≤ w.i.toNat
  · exact .inl ⟨hi, readDigits_end hi⟩
  · have hi : w.i.toNat < s.len.toNat := by omega
    cases hb : s.buf.read w.i.toNat with
    | none => exact .inr (.inl ⟨hi, rfl, readDigits_unwritten hi hb⟩)
    | some b =>
      cases hm : b.getLsbD 7 with
      | true => exact .inr (.inr (.inl ⟨b, hi, rfl, hm, readDigits_more hi hb hm⟩))
      | false => exact .inr (.inr (.inr ⟨b, hi, rfl, hm, readDigits_last hi hb hm⟩))

/-- VDEC's result once it reads its first byte: the loop with four bytes to read, but for the single-byte form. -/
theorem vdecResult_of_more {s : State} {b : Byte} (hi : s.offset.toNat < s.len.toNat)
    (hb : s.buf.read s.offset.toNat = some b) (hm : b.getLsbD 7 = true) :
    vdecResult s true = readDigits s 3 ((Walk.start s.offset).take b) := by
  have hz : s.len ≠ 0 := by rintro h; rw [h] at hi; simp at hi
  rw [vdecResult, if_neg (by simpa using hz), if_neg (by rw [BitVec.le_def]; omega), State.blockRead_ok.mpr hb]
  simp [moreFollow, hm, Config.maxVarintBytes]

/-- VDEC's result when its first byte is a single-byte form: the whole buffer must be that byte. -/
theorem vdecResult_of_single {s : State} {b : Byte} (hi : s.offset.toNat < s.len.toNat)
    (hb : s.buf.read s.offset.toNat = some b) (hm : b.getLsbD 7 = false) :
    vdecResult s true =
      if 1 < s.len then .ok (.error .fastPathTrailing) else .ok (.ok ((Walk.start s.offset).take b).acc) := by
  have hz : s.len ≠ 0 := by rintro h; rw [h] at hi; simp at hi
  rw [vdecResult, if_neg (by simpa using hz), if_neg (by rw [BitVec.le_def]; omega), State.blockRead_ok.mpr hb]
  simp only [moreFollow, hm, Bool.false_eq_true, if_false]

/-! ### The value -/

theorem digitOf_toNat (b : Byte) : (digitOf b).toNat = b.toNat % 128 := by
  simp [digitOf]
  omega

/-- A digit added in at its place: no digit carries into another (40_varint_decode.md R103). -/
theorem Walk.take_acc_toNat {w : Walk} (b : Byte) (hk : w.k < 4) (ha : w.acc.toNat < 128 ^ w.k) :
    (w.take b).acc.toNat = w.acc.toNat + (b.toNat % 128) * 128 ^ w.k := by
  have hd : b.toNat % 128 < 128 := Nat.mod_lt _ (by decide)
  have hp : (2 : Nat) ^ (7 * w.k) = 128 ^ w.k := by rw [Nat.pow_mul]
  have hb : (b.toNat % 128) * 128 ^ w.k ≤ 127 * 128 ^ w.k := Nat.mul_le_mul_right _ (by omega)
  have h3 : 128 ^ w.k ≤ 128 ^ 3 := Nat.pow_le_pow_right (by decide) (by omega)
  simp only [Walk.take, BitVec.toNat_add, BitVec.toNat_shiftLeft, digitOf_toNat, Nat.shiftLeft_eq, hp]
  rw [Nat.mod_eq_of_lt (a := _ * _) (by omega), Nat.mod_eq_of_lt (by omega)]

end Sys2Proof.Machine
end

