-- ==== Sys2Proof/Laws/Command.lean ====
section
/-! SUPPORT. What the commands that decode nothing do, and what every command does. -/

namespace Sys2Proof.Machine

theorem execRsv2_eq (strict present : Bool) (s : State) :
    execRsv2 strict present s = .next (s.complete (failPre .reservedOp)) := rfl

theorem execRsv3_eq (strict present : Bool) (s : State) :
    execRsv3 strict present s = .next (s.complete (failPre .reservedOp)) := rfl

theorem execSetcfg_busy {s : State} (op : Nat) (strict present : Bool) (h : s.status.busy = true) :
    execSetcfg op strict present s = .next s := by
  simp [execSetcfg, h]

theorem execSetcfg_idle {s : State} (op : Nat) (strict present : Bool) (h : s.status.busy = false) :
    execSetcfg op strict present s = .next (s.storeCommand (BitVec.ofNat 2 op) strict present) := by
  simp [execSetcfg, h]

/-- A command with GO = 1 that completes is one completion write (60_exceptions.md R184). -/
theorem exec_go_next {i : Instr} {s t : State} (hg : i.isGo = true) (h : exec i s = .next t) :
    ∃ c, t = s.complete c := by
  cases i with
  | vdec strict present => exact execVdec_next h
  | sdec strict present => exact execSdec_next h
  | rsv2 strict present => exact ⟨_, by injection h with h; exact h.symm⟩
  | rsv3 strict present => exact ⟨_, by injection h with h; exact h.symm⟩
  | setcfg op strict present => cases hg

/-- No command is refused. -/
theorem exec_not_refused (i : Instr) (s : State) (r : Refusal) : exec i s ≠ .refused r := by
  cases i with
  | vdec strict present =>
    rcases execVdec_cases strict present s with ⟨-, e⟩ | ⟨-, ⟨f, -, e⟩ | ⟨q, -, e⟩⟩ <;>
      (show execVdec strict present s ≠ _; rw [e]; simp)
  | sdec strict present =>
    rcases execSdec_cases strict present s with ⟨-, e⟩ | ⟨-, ⟨f, -, e⟩ | ⟨q, -, e⟩⟩ <;>
      (show execSdec strict present s ≠ _; rw [e]; simp)
  | rsv2 strict present => simp [exec, execRsv2]
  | rsv3 strict present => simp [exec, execRsv3]
  | setcfg op strict present => simp [exec, execSetcfg]

end Sys2Proof.Machine
end

