-- ==== Sys2Proof/Laws/Decoding.lean ====
section
/-! SUPPORT. What the decoders do over a run of bytes that BUF holds, once, for every proof about VDEC and SDEC. -/

namespace Sys2Proof.Machine

/-- A legal buffer passes the LEN_RANGE check (60_exceptions.md R183). -/
theorem State.lenOutOfRange_eq_false {s : State} (h : s.len.toNat ≤ s.params.bufSize) (p) : s.lenOutOfRange p = false := by
  simp [State.lenOutOfRange]; intro _; exact h

theorem varintValue_lt (bs : List Byte) : varintValue bs < 128 ^ bs.length := by
  induction bs with
  | nil => simp [varintValue]
  | cons b bs ih =>
    rw [List.length_cons, pow_succ, varintValue]
    have := Nat.mod_lt b.toNat (show 0 < 128 by decide)
    omega

theorem varintValue_append (bs cs : List Byte) : varintValue (bs ++ cs) = varintValue bs + varintValue cs * 128 ^ bs.length := by
  induction bs with
  | nil => simp [varintValue]
  | cons b bs ih => rw [List.cons_append, varintValue, ih, varintValue, List.length_cons]; ring

/-- The loop over bytes that all have bit 7 = 1: index, digit count and accumulated value after them. -/
theorem readDigits_run (s : State) :
    ∀ (more : List Byte) (left : Nat) (w : Walk), (∀ b ∈ more, b.getLsbD 7 = true) →
    s.Holds w.i.toNat more → w.i.toNat + more.length ≤ s.len.toNat →
    ∃ w', w'.i.toNat = w.i.toNat + more.length ∧ w'.k = w.k + more.length ∧
      (w.acc.toNat < 128 ^ w.k → w.k + more.length ≤ 4 →
        w'.acc.toNat = w.acc.toNat + varintValue more * 128 ^ w.k ∧ w'.acc.toNat < 128 ^ w'.k) ∧
      readDigits s (left + more.length) w = readDigits s left w' := by
  intro more
  induction more with
  | nil => intro left w _ _ _; exact ⟨w, by simp, by simp, fun h _ => ⟨by simp [varintValue], h⟩, rfl⟩
  | cons b bs ih =>
    intro left w hm hh hl
    obtain ⟨h0, hh⟩ := State.holds_cons.mp hh
    simp only [List.length_cons] at hl ⊢
    have hi : w.i.toNat < s.len.toNat := by omega
    have hti := Walk.take_i_toNat (b := b) hi
    obtain ⟨w', h1, h2, h3, h4⟩ := ih left (w.take b) (fun c hc => hm c (List.mem_cons_of_mem _ hc))
      (by rw [hti]; exact hh) (by rw [hti]; omega)
    refine ⟨w', by omega, by rw [h2]; simp [Walk.take]; omega, ?_, ?_⟩
    · intro ha hk
      have hta := Walk.take_acc_toNat b (by omega) ha
      have hlt : (w.take b).acc.toNat < 128 ^ (w.take b).k := by
        rw [hta]
        show _ < 128 ^ (w.k + 1)
        have : (b.toNat % 128) * 128 ^ w.k ≤ 127 * 128 ^ w.k := Nat.mul_le_mul_right _ (by omega)
        rw [pow_succ]; omega
      obtain ⟨h5, h6⟩ := h3 hlt (by simp [Walk.take]; omega)
      refine ⟨?_, h6⟩
      rw [h5, hta]
      show _ + varintValue bs * 128 ^ (w.k + 1) = _ + (b.toNat % 128 + 128 * varintValue bs) * 128 ^ w.k
      ring
    · rw [show left + (bs.length + 1) = (left + bs.length) + 1 by omega, readDigits_more hi h0 (hm b List.mem_cons_self), h4]

/-- VDEC's result over one to three first bytes that all have bit 7 = 1. -/
theorem vdecResult_of_run (s : State) (b : Byte) (bs : List Byte) (left : Nat) (hlen : left + bs.length = 3)
    (hm : ∀ c ∈ b :: bs, c.getLsbD 7 = true)
    (hh : s.Holds s.offset.toNat (b :: bs)) (hl : s.offset.toNat + (b :: bs).length ≤ s.len.toNat) :
    ∃ w', w'.i.toNat = s.offset.toNat + (b :: bs).length ∧ w'.k = (b :: bs).length ∧
      w'.acc.toNat = varintValue (b :: bs) ∧ w'.acc.toNat < 128 ^ w'.k ∧ vdecResult s true = readDigits s left w' := by
  obtain ⟨h0, hh'⟩ := State.holds_cons.mp hh
  have hi : s.offset.toNat < s.len.toNat := by simp at hl; omega
  have := readDigits_run s (b :: bs) left (Walk.start s.offset) hm hh hl
  obtain ⟨w', h1, h2, h3, h4⟩ := this
  obtain ⟨h5, h6⟩ := h3 (by simp [Walk.start]) (by simp [Walk.start]; omega)
  refine ⟨w', h1, by simpa [Walk.start] using h2, by simpa [Walk.start] using h5, h6, ?_⟩
  rw [vdecResult_of_more hi h0 (hm b List.mem_cons_self), ← h4]
  rw [List.length_cons, show left + (bs.length + 1) = 3 + 1 by omega]
  exact (readDigits_more (w := Walk.start s.offset) hi h0 (hm b List.mem_cons_self)).symm

/-- The loop reads BUF only at the indices it may reach. -/
theorem readDigits_congr {s t : State} (hlen : t.len = s.len) : ∀ left (w : Walk),
    (∀ j, w.i.toNat ≤ j → j < w.i.toNat + left → j < s.len.toNat → t.buf.read j = s.buf.read j) →
      readDigits t left w = readDigits s left w := by
  intro left
  induction left with
  | zero => intro w _; rfl
  | succ n ih =>
    intro w h
    rcases readDigits_cases s n w with ⟨h1, e⟩ | ⟨hl, hn, e⟩ | ⟨b, hl, hb, hm, e⟩ | ⟨b, hl, hb, hm, e⟩ <;> rw [e]
    · exact readDigits_end (by rw [hlen]; exact h1)
    · exact readDigits_unwritten (by rw [hlen]; exact hl) (by rw [h _ le_rfl (by omega) hl]; exact hn)
    · rw [readDigits_more (by rw [hlen]; exact hl) (by rw [h _ le_rfl (by omega) hl]; exact hb) hm]
      exact ih _ (by rw [Walk.take_i_toNat hl]; intro j h1 h2 h3; exact h j (by omega) (by omega) h3)
    · rw [readDigits_last (by rw [hlen]; exact hl) (by rw [h _ le_rfl (by omega) hl]; exact hb) hm, hlen]

/-- Two rows of the UTF-8 table share no first byte. -/
theorem utf8Rows_first_disjoint :
    ∀ r ∈ utf8Rows, ∀ q ∈ utf8Rows, r = q ∨ ∀ a ∈ r.head?, ∀ c ∈ q.head?, a.hi < c.lo ∨ c.hi < a.lo := by decide

theorem utf8Rows_ne_nil : ∀ r ∈ utf8Rows, r ≠ [] := by decide

/-- A sequence that fits a row is the one taken off the front. -/
theorem takeCodePoint_of_row {row : List ByteRange} {p rest : List Byte} (hr : row ∈ utf8Rows)
    (h : List.Forall₂ (fun (r : ByteRange) (b : Byte) => r.lo ≤ b ∧ b ≤ r.hi) row p) :
    takeCodePoint (p ++ rest) = some rest := by
  cases hc : takeCodePoint (p ++ rest) with
  | none =>
    have := List.findSome?_eq_none_iff.mp hc row hr
    rw [takeRow_eq_some.mpr ⟨p, h, rfl⟩] at this; cases this
  | some r' =>
    obtain ⟨row', hr', q, hq, e⟩ := takeCodePoint_some hc
    have hrow : row = row' := by
      rcases utf8Rows_first_disjoint row hr row' hr' with h' | h'
      · exact h'
      · cases h with
        | nil => exact absurd rfl (utf8Rows_ne_nil _ hr)
        | cons ha _ =>
          cases hq with
          | nil => exact absurd rfl (utf8Rows_ne_nil _ hr')
          | cons hb _ =>
            injection e with e1 e2
            subst e1
            have := h' _ rfl _ rfl
            simp only [BitVec.le_def, BitVec.lt_def] at *
            omega
    subst hrow
    rw [(List.append_inj e (h.length_eq.symm.trans hq.length_eq)).2]

end Sys2Proof.Machine
end

