-- ==== Sys2Proof/Laws/Encoding.lean ====
section
/-! SUPPORT. The fields of a command word, and the table's rows. -/

namespace Sys2Proof

theorem commandWord_toNat (go : Bool) {op : Nat} (strict present : Bool) (h : op < 4) :
    (commandWord go op strict present).toNat = go.toNat + 2 * op + 8 * strict.toNat + 16 * present.toNat := by
  rw [commandWord, BitVec.toNat_ofNat, Nat.mod_eq_of_lt]
  have h1 := go.toNat_le
  have h2 := strict.toNat_le
  have h3 := present.toNat_le
  omega

theorem cmdGo_commandWord (go : Bool) {op : Nat} (strict present : Bool) (h : op < 4) :
    cmdGo (commandWord go op strict present) = go := by
  interval_cases op <;> revert go strict present <;> decide

theorem cmdOp_commandWord (go : Bool) {op : Nat} (strict present : Bool) (h : op < 4) :
    cmdOp (commandWord go op strict present) = BitVec.ofNat 2 op := by
  interval_cases op <;> revert go strict present <;> decide

theorem cmdStrict_commandWord (go : Bool) {op : Nat} (strict present : Bool) (h : op < 4) :
    cmdStrict (commandWord go op strict present) = strict := by
  interval_cases op <;> revert go strict present <;> decide

theorem cmdPresent_commandWord (go : Bool) {op : Nat} (strict present : Bool) (h : op < 4) :
    cmdPresent (commandWord go op strict present) = present := by
  interval_cases op <;> revert go strict present <;> decide

/-- No two rows of the opcode table share a word: where both masks look, the patterns differ. -/
theorem opcodeRows_disjoint :
    opcodeRows.Pairwise fun r q => r.pattern &&& q.mask ≠ q.pattern &&& r.mask := by decide

/-- The command a word with GO = 1 stands for has GO = 1. -/
theorem decodeWord_isGo (w : Word) : (decodeWord w).isGo = cmdGo w := by
  unfold decodeWord
  cases h : cmdGo w with
  | false => simp [Instr.isGo]
  | true =>
    simp only [if_true]
    split <;> rfl

end Sys2Proof
end

