-- ==== Sys2Proof/Laws/PerInstr.lean ====
section
/-! SUPPORT. Statements about every command as syntax, one lemma a constructor. -/

namespace Sys2Proof.Laws

/-- The encoding of a well-formed command agrees with the match and mask of its row of spec/opcode_table.json, and with
no other row's. -/
def EncodesInItsRow.Statement (i : Instr) : Prop :=
  i.WellFormed → ∀ r ∈ opcodeRows, r.covers (encode i) = (r.mnemonic == i.mnemonic)

theorem EncodesInItsRow.vdec (strict present : Bool) : EncodesInItsRow.Statement (.vdec strict present) := by
  unfold EncodesInItsRow.Statement; revert strict present; decide

theorem EncodesInItsRow.sdec (strict present : Bool) : EncodesInItsRow.Statement (.sdec strict present) := by
  unfold EncodesInItsRow.Statement; revert strict present; decide

theorem EncodesInItsRow.rsv2 (strict present : Bool) : EncodesInItsRow.Statement (.rsv2 strict present) := by
  unfold EncodesInItsRow.Statement; revert strict present; decide

theorem EncodesInItsRow.rsv3 (strict present : Bool) : EncodesInItsRow.Statement (.rsv3 strict present) := by
  unfold EncodesInItsRow.Statement; revert strict present; decide

theorem EncodesInItsRow.setcfg (op : Nat) (strict present : Bool) :
    EncodesInItsRow.Statement (.setcfg op strict present) := by
  intro h
  have h : op < 4 := by simpa [Instr.WellFormed, Instr.wellFormed] using h
  interval_cases op <;> revert strict present <;> decide

end Sys2Proof.Laws
end

