-- ==== Sys2Proof/Laws/Reference.lean ====
section
/-! SUPPORT. What the bytes of one code point are: exactly the sequences that fit a row of the UTF-8 table. -/

namespace Sys2Proof.Machine

theorem byte_toNat {n : Nat} (h : n < 256) : (BitVec.ofNat 8 n).toNat = n := by
  rw [BitVec.toNat_ofNat, Nat.mod_eq_of_lt h]

/-- A byte is in a range when its number is. -/
theorem byte_in_range {n lo hi : Nat} (h : n < 256) (h1 : lo ≤ n) (h2 : n ≤ hi) (h3 : hi < 256) :
    BitVec.ofNat 8 lo ≤ BitVec.ofNat 8 n ∧ BitVec.ofNat 8 n ≤ BitVec.ofNat 8 hi := by
  simp only [BitVec.le_def, byte_toNat h, byte_toNat h3, byte_toNat (Nat.lt_of_le_of_lt h1 h)]
  exact ⟨h1, h2⟩

/-- The bytes of a code point fit a row of the table (30_encoding.md R80; log 14, log 21). -/
theorem utf8OfCodePoint_fits {c : Nat} {p : List Byte} (h : utf8OfCodePoint c = some p) :
    ∃ row ∈ utf8Rows, List.Forall₂ (fun (r : ByteRange) (b : Byte) => r.lo ≤ b ∧ b ≤ r.hi) row p := by
  have rng {n : Nat} (lo hi : Nat) (h : n < 256 ∧ lo ≤ n ∧ n ≤ hi ∧ hi < 256) :=
    byte_in_range h.1 h.2.1 h.2.2.1 h.2.2.2
  have tail {n : Nat} (h : 0x80 ≤ n ∧ n ≤ 0xBF) := rng (n := n) 0x80 0xBF (by omega)
  unfold utf8OfCodePoint at h
  split at h
  · injection h with h; subst h
    exact ⟨[⟨0x00, 0x7F⟩], by decide, .cons (rng 0x00 0x7F (by omega)) .nil⟩
  split at h
  · injection h with h; subst h
    exact ⟨[⟨0xC2, 0xDF⟩, tailRange], by decide,
      .cons (rng 0xC2 0xDF (by omega)) (.cons (tail (by omega)) .nil)⟩
  split at h
  · cases h
  split at h
  · injection h with h; subst h
    rcases (by omega : c < 0x1000 ∨ 0x1000 ≤ c ∧ c < 0xD000 ∨ 0xD000 ≤ c ∧ c < 0xD800 ∨ 0xDFFF < c) with hc | hc | hc | hc
    · exact ⟨[⟨0xE0, 0xE0⟩, ⟨0xA0, 0xBF⟩, tailRange], by decide, .cons (rng 0xE0 0xE0 (by omega))
        (.cons (rng 0xA0 0xBF (by omega)) (.cons (tail (by omega)) .nil))⟩
    · exact ⟨[⟨0xE1, 0xEC⟩, tailRange, tailRange], by decide, .cons (rng 0xE1 0xEC (by omega))
        (.cons (tail (by omega)) (.cons (tail (by omega)) .nil))⟩
    · exact ⟨[⟨0xED, 0xED⟩, ⟨0x80, 0x9F⟩, tailRange], by decide, .cons (rng 0xED 0xED (by omega))
        (.cons (rng 0x80 0x9F (by omega)) (.cons (tail (by omega)) .nil))⟩
    · exact ⟨[⟨0xEE, 0xEF⟩, tailRange, tailRange], by decide, .cons (rng 0xEE 0xEF (by omega))
        (.cons (tail (by omega)) (.cons (tail (by omega)) .nil))⟩
  split at h
  · injection h with h; subst h
    rcases (by omega : c < 0x40000 ∨ 0x40000 ≤ c ∧ c < 0x100000 ∨ 0x100000 ≤ c) with hc | hc | hc
    · exact ⟨[⟨0xF0, 0xF0⟩, ⟨0x90, 0xBF⟩, tailRange, tailRange], by decide, .cons (rng 0xF0 0xF0 (by omega))
        (.cons (rng 0x90 0xBF (by omega)) (.cons (tail (by omega)) (.cons (tail (by omega)) .nil)))⟩
    · exact ⟨[⟨0xF1, 0xF3⟩, tailRange, tailRange, tailRange], by decide, .cons (rng 0xF1 0xF3 (by omega))
        (.cons (tail (by omega)) (.cons (tail (by omega)) (.cons (tail (by omega)) .nil)))⟩
    · exact ⟨[⟨0xF4, 0xF4⟩, ⟨0x80, 0x8F⟩, tailRange, tailRange], by decide, .cons (rng 0xF4 0xF4 (by omega))
        (.cons (rng 0x80 0x8F (by omega)) (.cons (tail (by omega)) (.cons (tail (by omega)) .nil)))⟩
  · cases h

theorem byte_of_toNat (b : Byte) {n : Nat} (h : n = b.toNat) : BitVec.ofNat 8 n = b := by
  rw [h, BitVec.ofNat_toNat, BitVec.setWidth_eq]

theorem utf8OfCodePoint_two {a b : Byte} (ha : 0xC2 ≤ a.toNat ∧ a.toNat ≤ 0xDF)
    (hb : 0x80 ≤ b.toNat ∧ b.toNat ≤ 0xBF) :
    utf8OfCodePoint ((a.toNat - 0xC0) * 64 + (b.toNat - 0x80)) = some [a, b] := by
  rw [utf8OfCodePoint, if_neg (by omega), if_pos (by omega), byte_of_toNat a (by omega), byte_of_toNat b (by omega)]

theorem utf8OfCodePoint_three {a b c : Byte} (ha : 0xE0 ≤ a.toNat ∧ a.toNat ≤ 0xEF)
    (hb : 0x80 ≤ b.toNat ∧ b.toNat ≤ 0xBF) (hc : 0x80 ≤ c.toNat ∧ c.toNat ≤ 0xBF)
    (h0 : a.toNat = 0xE0 → 0xA0 ≤ b.toNat) (hD : a.toNat = 0xED → b.toNat ≤ 0x9F) :
    utf8OfCodePoint ((a.toNat - 0xE0) * 4096 + (b.toNat - 0x80) * 64 + (c.toNat - 0x80)) = some [a, b, c] := by
  rw [utf8OfCodePoint, if_neg (by omega), if_neg (by omega), if_neg (by omega), if_pos (by omega),
    byte_of_toNat a (by omega), byte_of_toNat b (by omega), byte_of_toNat c (by omega)]

theorem utf8OfCodePoint_four {a b c d : Byte} (ha : 0xF0 ≤ a.toNat ∧ a.toNat ≤ 0xF4)
    (hb : 0x80 ≤ b.toNat ∧ b.toNat ≤ 0xBF) (hc : 0x80 ≤ c.toNat ∧ c.toNat ≤ 0xBF)
    (hd : 0x80 ≤ d.toNat ∧ d.toNat ≤ 0xBF) (h0 : a.toNat = 0xF0 → 0x90 ≤ b.toNat)
    (h4 : a.toNat = 0xF4 → b.toNat ≤ 0x8F) :
    utf8OfCodePoint
      ((a.toNat - 0xF0) * 262144 + (b.toNat - 0x80) * 4096 + (c.toNat - 0x80) * 64 + (d.toNat - 0x80)) =
      some [a, b, c, d] := by
  rw [utf8OfCodePoint, if_neg (by omega), if_neg (by omega), if_neg (by omega), if_neg (by omega), if_pos (by omega),
    byte_of_toNat a (by omega), byte_of_toNat b (by omega), byte_of_toNat c (by omega), byte_of_toNat d (by omega)]

/-- A sequence that fits a row of the table is the bytes of a code point (30_encoding.md R80; log 14, log 21). -/
theorem utf8OfCodePoint_of_fits {row : List ByteRange} {p : List Byte} (hr : row ∈ utf8Rows)
    (h : List.Forall₂ (fun (r : ByteRange) (b : Byte) => r.lo ≤ b ∧ b ≤ r.hi) row p) :
    ∃ c, utf8OfCodePoint c = some p := by
  simp only [utf8Rows, List.mem_cons, List.not_mem_nil, or_false] at hr
  rcases hr with rfl | rfl | rfl | rfl | rfl | rfl | rfl | rfl | rfl <;>
    simp only [List.forall₂_cons_left_iff, List.forall₂_nil_left_iff, tailRange, BitVec.le_def,
      BitVec.reduceToNat] at h
  · obtain ⟨a, _, ha, rfl, rfl⟩ := h
    exact ⟨a.toNat, by rw [utf8OfCodePoint, if_pos (by omega), byte_of_toNat a rfl]⟩
  · obtain ⟨a, _, ha, ⟨b, _, hb, rfl, rfl⟩, rfl⟩ := h
    exact ⟨_, utf8OfCodePoint_two ha hb⟩
  iterate 4
    obtain ⟨a, _, ha, ⟨b, _, hb, ⟨c, _, hc, rfl, rfl⟩, rfl⟩, rfl⟩ := h
    exact ⟨_, utf8OfCodePoint_three (by omega) (by omega) hc (by omega) (by omega)⟩
  iterate 3
    obtain ⟨a, _, ha, ⟨b, _, hb, ⟨c, _, hc, ⟨d, _, hd, rfl, rfl⟩, rfl⟩, rfl⟩, rfl⟩ := h
    exact ⟨_, utf8OfCodePoint_four (by omega) (by omega) hc hd (by omega) (by omega)⟩

end Sys2Proof.Machine
end

