-- ==== Sys2Proof/Laws/Step.lean ====
section
/-! SUPPORT. What one step can do, once, for every proof about runs. -/

namespace Sys2Proof.Machine

/-- The fields of the command the block was started with are CTRL's, with GO = 1. -/
theorem State.decode_latchedCommand (s : State) :
    decodeWord s.latchedCommand =
      match s.ctrl.op.toNat with
      | 0 => .vdec s.ctrl.strict s.ctrl.present
      | 1 => .sdec s.ctrl.strict s.ctrl.present
      | 2 => .rsv2 s.ctrl.strict s.ctrl.present
      | _ => .rsv3 s.ctrl.strict s.ctrl.present := by
  have h := s.ctrl.op.isLt
  unfold decodeWord State.latchedCommand
  rw [cmdGo_commandWord _ _ _ h, cmdOp_commandWord _ _ _ h, cmdStrict_commandWord _ _ _ h, cmdPresent_commandWord _ _ _ h]
  simp only [if_true, BitVec.ofNat_toNat, BitVec.setWidth_eq] <;> rfl

theorem State.latchedCommand_isGo (s : State) : (decodeWord s.latchedCommand).isGo = true := by
  rw [decodeWord_isGo]
  exact cmdGo_commandWord _ _ _ s.ctrl.op.isLt

/-- A word with GO = 0 runs as the store of its fields, or is dropped (10_state.md R24). -/
theorem exec_configuration {w : Word} (h : cmdGo w = false) (s : State) :
    exec (decodeWord w) s = .next (s.writeCtrl w) := by
  have e : decodeWord w = .setcfg (cmdOp w).toNat (cmdStrict w) (cmdPresent w) := by simp [decodeWord, h]
  rw [e]
  show execSetcfg _ _ _ s = _
  simp [execSetcfg, State.writeCtrl, h]

/-- Everything a host transaction can do: SETCFG as a command is the same write as through the register space. -/
theorem hostTurn_cons {s : State} {op : HostOp} {ops : List HostOp} (h : s.pending = op :: ops) :
    hostTurn s = (s.setPending ops).hostAccess op := by
  unfold hostTurn
  rw [h]
  show (match op.setcfgWord with
    | some w => exec (decodeWord w) (s.setPending ops)
    | none => (s.setPending ops).hostAccess op) = _
  cases op with
  | wr off w =>
    by_cases hc : off = 0 ∧ cmdGo w = false
    · simp only [HostOp.setcfgWord, if_pos hc]
      rw [exec_configuration hc.2, hc.1]
      rfl
    · simp only [HostOp.setcfgWord, if_neg hc]
  | rd off => rfl
  | wb i b => rfl
  | rb i => rfl
  | poll => rfl

theorem hostTurn_nil {s : State} (h : s.pending = []) : hostTurn s = .next s := by
  unfold hostTurn
  rw [h]

theorem blockTurn_busy {s : State} (h : s.status.busy = true) : blockTurn s = exec (decodeWord s.latchedCommand) s :=
  if_pos h

theorem blockTurn_idle {s : State} (h : s.status.busy = false) : blockTurn s = .next s := if_neg (by simp [h])

/-- Everything the block's turn that answers a state can do: nothing while BUSY = 0, else one completion. -/
theorem blockTurn_next {s t : State} (h : blockTurn s = .next t) :
    (s.status.busy = false ∧ t = s) ∨
    (s.status.busy = true ∧ exec (decodeWord s.latchedCommand) s = .next t ∧ ∃ c, t = s.complete c) := by
  unfold blockTurn at h
  cases hb : s.status.busy with
  | false =>
    rw [hb, if_neg (by simp)] at h
    injection h with h
    exact .inl ⟨rfl, h.symm⟩
  | true =>
    rw [hb, if_pos rfl] at h
    exact .inr ⟨rfl, h, exec_go_next s.latchedCommand_isGo h⟩

/-- Everything the host's turn that answers a state can do: nothing with no transaction left; else one of a register
write, a noted read, a BUF write, a poll that goes on. `ops` is what is left to do. -/
theorem hostTurn_next {s t : State} (h : hostTurn s = .next t) :
    (s.pending = [] ∧ t = s) ∨
    ∃ op ops, s.pending = op :: ops ∧
      ((∃ off w, op = .wr off w ∧ t = (s.setPending ops).writeReg off w) ∨
        (∃ i b, op = .wb i b ∧ t = (s.setPending ops).hostWriteBuf i b) ∨
        (∃ r, t = (s.setPending ops).note r) ∨
        (∃ r, t = s.note r)) := by
  cases hp : s.pending with
  | nil =>
    rw [hostTurn_nil hp] at h
    injection h with h
    exact .inl ⟨rfl, h.symm⟩
  | cons op ops =>
    rw [hostTurn_cons hp] at h
    refine .inr ⟨op, ops, rfl, ?_⟩
    cases op with
    | wr off w => injection h with h; exact .inl ⟨off, w, rfl, h.symm⟩
    | wb i b => injection h with h; exact .inr (.inl ⟨i, b, rfl, h.symm⟩)
    | rd off => injection h with h; exact .inr (.inr (.inl ⟨_, h.symm⟩))
    | rb i =>
      change (s.setPending ops).hostNoteBuf i = _ at h
      unfold State.hostNoteBuf at h
      split at h
      · cases h
      · injection h with h; exact .inr (.inr (.inl ⟨_, h.symm⟩))
    | poll =>
      injection h with h
      unfold State.hostPoll at h
      dsimp only at h
      split at h
      · exact .inr (.inr (.inl ⟨_, h.symm⟩))
      · refine .inr (.inr (.inr ⟨.reg statusOffset (s.readReg statusOffset), ?_⟩))
        rw [← h]
        show State.setPending _ (.poll :: ops) = _
        rw [← hp]
        rfl

/-! ### Whose turn it is -/

theorem step_host {s : State} {ts : List Turn} (h : s.turns = .host :: ts) : step s = hostTurn (s.setTurns ts) := by
  unfold step; rw [h]

theorem step_block {s : State} {ts : List Turn} (h : s.turns = .block :: ts) :
    step s = blockTurn (s.setTurns ts) := by
  unfold step; rw [h]

theorem step_reset {s : State} {ts : List Turn} (h : s.turns = .reset :: ts) :
    step s = .next ((s.setTurns ts).resetBlock) := by
  unfold step; rw [h]

theorem step_nil {s : State} (h : s.turns = []) : step s = if s.status.busy then blockTurn s else hostTurn s := by
  unfold step; rw [h]

/-- Every step is a reset, a turn of the block or a turn of the host, on the state with the turn taken off. -/
theorem step_turn (s : State) :
    (∃ ts, s.turns = .reset :: ts ∧ step s = .next ((s.setTurns ts).resetBlock)) ∨
    (∃ ts, (s.turns = .block :: ts ∨ s.turns = [] ∧ ts = [] ∧ s.status.busy = true) ∧
      step s = blockTurn (s.setTurns ts)) ∨
    (∃ ts, (s.turns = .host :: ts ∨ s.turns = [] ∧ ts = [] ∧ s.status.busy = false) ∧
      step s = hostTurn (s.setTurns ts)) := by
  cases ht : s.turns with
  | nil =>
    have e : s.setTurns [] = s := by rw [← ht]; rfl
    have h := step_nil ht
    cases hb : s.status.busy with
    | true => exact .inr (.inl ⟨[], .inr ⟨rfl, rfl, rfl⟩, by rw [e, h, hb, if_pos rfl]⟩)
    | false => exact .inr (.inr ⟨[], .inr ⟨rfl, rfl, rfl⟩, by rw [e, h, hb, if_neg (by simp)]⟩)
  | cons turn ts =>
    cases turn with
    | host => exact .inr (.inr ⟨ts, .inl rfl, step_host ht⟩)
    | block => exact .inr (.inl ⟨ts, .inl rfl, step_block ht⟩)
    | reset => exact .inl ⟨ts, rfl, step_reset ht⟩

/-! ### Runs -/

theorem run_zero (s : State) : core.run 0 s = .next s := rfl

theorem run_next {k : Nat} {s t : State} (h : step s = .next t) : core.run (k + 1) s = core.run k t := by
  have h : core.step s = .next t := h
  simp only [Host.Core.run, h]

theorem run_fault {k : Nat} {s : State} {f : Fault} (h : step s = .fault f) : core.run (k + 1) s = .fault f := by
  have h : core.step s = .fault f := h
  simp only [Host.Core.run, h]

end Sys2Proof.Machine
end

