-- ==== Sys2Proof/Tests/Slice0.lean ====
section
/-! SUPPORT. The model's own tests: the WellFormed smoke test, decoding of words written out from 30_encoding.md R70
and R72, one step on vectors of 95_test_vectors.md, and for each obligation with hypotheses a state that meets them. -/

namespace Sys2Proof.Tests

open Sys2Proof Sys2Proof.Machine

/-! ### Helpers -/

/-- The reset state with bytes in BUF from index 0 on, LEN and OFFSET. -/
def loaded (bytes : List Byte) (len offset : Word) : State :=
  { State.reset with buf := Memory.writeAll [] 0 bytes, len := len, offset := offset }

/-- The same with given UTF8_VALIDATE and STR_TRAILING_REJECT. -/
def loadedWith (validate reject : Bool) (bytes : List Byte) (len : Word) : State :=
  { loaded bytes len 0 with params := ⟨65537, validate, reject⟩ }

/-- The same while the command of a word is in progress. -/
def started (s : State) (w : Word) : State := s.writeCtrl w

/-- What a host reads of STATUS, VALUE, SLEN and SOFF in the state an outcome gives. -/
def report (o : Host.Outcome State Fault Refusal) : Option (List Word) :=
  (nextState o).map fun t => [t.readReg 0x0C, t.readReg 0x10, t.readReg 0x14, t.readReg 0x18]

/-- A host turn with one transaction. -/
def hostStep (s : State) (op : HostOp) : Host.Outcome State Fault Refusal :=
  step ((s.setTurns [.host]).setPending [op])

/-! ### Well-formed commands -/

/-- OP of SETCFG is a 2-bit field (30_encoding.md R70): the number 4 does not fit it. -/
theorem test_setcfg_op_four_is_ill_formed : ¬(Instr.setcfg 4 true true).WellFormed := by decide

theorem test_setcfg_op_three_is_well_formed : (Instr.setcfg 3 false false).WellFormed := by decide

/-! ### Decoding: words written out bit by bit, PRESENT STRICT OP OP GO (30_encoding.md R70, R72) -/

theorem test_decode_vdec : decode 0b1_1_00_1 = .ok (.vdec true true) := by rfl

theorem test_decode_sdec : decode 0b0_1_01_1 = .ok (.sdec true false) := by rfl

theorem test_decode_rsv2 : decode 0b1_0_10_1 = .ok (.rsv2 false true) := by rfl

theorem test_decode_rsv3 : decode 0b0_0_11_1 = .ok (.rsv3 false false) := by rfl

theorem test_decode_setcfg : decode 0b1_0_10_0 = .ok (.setcfg 2 false true) := by rfl

/-- Bits 31:5 are ignored (30_encoding.md R73; 95_test_vectors.md H2). -/
theorem test_decode_ignores_reserved_bits : decode 0xFFFFFFF8 = .ok (.setcfg 0 true true) := by rfl

theorem test_decode_rejects_a_wider_pattern : decode 0x100000019 = .error .widerThanOneWord := by rfl

/-- The words of 30_encoding.md R82. -/
theorem test_assembled_words :
    asmVdec true true = .wr 0x00 0x19 ∧ asmSdec false true = .wr 0x00 0x13 ∧ asmCfg 2 false true = .wr 0x00 0x14 := by
  decide

/-! ### One step each, from 95_test_vectors.md -/

/-- V23: an offset, three digits, 1,000,001. -/
theorem test_vdec_value_at_an_offset :
    report (exec (.vdec true true) (loaded [0x30, 0xC1, 0x84, 0x3D] 4 1)) = some [0x002, 0x000F4241, 0, 0] := by decide

/-- V16: OVERSIZE, not TRUNCATED, in lenient mode. -/
theorem test_vdec_oversize_lenient :
    report (exec (.vdec false true) (loaded [0xFF, 0xFF, 0xFF, 0xFF] 4 0)) = some [0x612, 0xFFFFFFFF, 0, 0] := by decide

/-- S10 with both parameters 1: a two-byte sequence. -/
theorem test_sdec_two_byte_sequence :
    report (exec (.sdec true true) (loadedWith true true [0x00, 0x02, 0xC3, 0xA9] 4)) = some [0x002, 0, 2, 2] := by
  decide

/-- S16: a surrogate is BAD_UTF8, in lenient mode null. -/
theorem test_sdec_surrogate_lenient :
    report (exec (.sdec false true) (loadedWith true false [0x00, 0x03, 0xED, 0xA0, 0x80] 5)) =
      some [0x832, 0, 0, 0] := by decide

/-- H4. -/
theorem test_rsv2 : report (exec (.rsv2 false true) (loaded [] 0 0)) = some [0x906, 0, 0, 0] := by decide

/-- H5: lenient, buffer absent, and no sentinel. -/
theorem test_rsv3_lenient_absent : report (exec (.rsv3 false false) (loaded [] 0 0)) = some [0x906, 0, 0, 0] := by decide

/-- H2: a configuration write starts nothing, and CTRL reads back 0x18. -/
theorem test_setcfg_reads_back :
    (nextState (hostStep State.reset (.wr 0x00 0xFFFFFFF8))).map (fun t => [t.readReg 0x00, t.readReg 0x0C]) =
      some [0x18, 0] := by decide

/-- A command word while BUSY = 1 is dropped (30_encoding.md R73). -/
theorem test_setcfg_dropped_while_busy :
    (nextState (hostStep (started State.reset 0x19) (.wr 0x00 0x04))).map (fun t => t.readReg 0x00) = some 0x18 := by
  decide

/-- H13: the block's read of a byte never written is a fault of the run. -/
theorem test_vdec_unwritten_byte_faults :
    faultOf (exec (.vdec true true) (loaded [] 1 0)) = some (.blockReadUnwritten 0) := by decide

/-- H8: a read outside BUF gives 0. -/
theorem test_host_read_outside_buf :
    (nextState (hostStep State.reset (.rb 70000))).map (fun t => t.noted) = some [.buf 70000 0] := by decide

/-! ### The reference functions, from 95_test_vectors.md section 4 -/

theorem test_encVarint_268435456 : (encVarint (some 268435456) true).toOption = some [0x80, 0x80, 0x80, 0x80, 0x01] := by
  decide

theorem test_encString_e_acute : (encString (some [0xE9]) true).toOption = some (.bytes [0x00, 0x02, 0xC3, 0xA9]) := by
  decide

/-! ### The per-instruction law -/

theorem test_law_has_a_case :
    Laws.EncodesInItsRow.Statement (.vdec true true) ∧ Laws.EncodesInItsRow.Statement (.setcfg 3 false true) :=
  ⟨Laws.EncodesInItsRow.vdec _ _, Laws.EncodesInItsRow.setcfg _ _ _⟩

/-! ### Witnesses: for each obligation with hypotheses, a state and operands that meet them, clause by clause -/

theorem witness_DecodeAndEncodeAgree :
    (Instr.setcfg 3 true true).WellFormed ∧ (Instr.vdec false true).WellFormed ∧ (Instr.sdec true true).WellFormed ∧
    (Instr.rsv2 true false).WellFormed ∧ (Instr.rsv3 false false).WellFormed := by decide

theorem witness_OpcodeRowsPartitionTheWords :
    (⟨"RSV3", 0x00000007, 0x00000007⟩ : OpcodeRow) ∈ opcodeRows ∧
    (⟨"RSV3", 0x00000007, 0x00000007⟩ : OpcodeRow).covers 0xFFFFFFFF = true := by decide

theorem witness_ReservedCommandBitsAreIgnored :
    (0xFFFFFFF9 : Word) ≠ 0x19 ∧ (0xFFFFFFF9 : Word) &&& 0x1F = 0x19 &&& 0x1F := by decide

/-- A reset while BUSY = 1, and one of an idle block. -/
theorem witness_ResetGivesTheResetValues :
    ((started (loaded [0x80] 1 0) 0x19).setTurns [.reset]).turns = [.reset] ∧
    ((started (loaded [0x80] 1 0) 0x19).setTurns [.reset]).status.busy = true ∧
    (State.reset.setTurns [.reset, .host]).turns = [.reset, .host] := by decide

/-- Dropped while BUSY = 1; a word with GO = 0; a word with GO = 1. -/
theorem witness_ControlWriteStoresAndStarts :
    (((started State.reset 0x19).setTurns [.host]).setPending [.wr 0x00 0x1B]).status.busy = true ∧
    ((State.reset.setTurns [.host]).setPending [.wr 0x00 0xFFFFFFFE]).status.busy = false ∧
    ((State.reset.setTurns [.host]).setPending [.wr 0x00 0xFFFFFFFE]).turns = [.host] ∧
    ((State.reset.setTurns [.host]).setPending [.wr 0x00 0xFFFFFFFE]).pending = [.wr 0x00 0xFFFFFFFE] ∧
    (0xFFFFFFFE : Word).getLsbD 0 = false ∧ (0xFFFFFFFF : Word).getLsbD 0 = true := by decide

theorem witness_ControlReadsBackBitsFourToOne : State.reset.status.busy = false := by decide

theorem witness_LenAndOffsetTakeAnyWord :
    ((State.reset.setTurns [.host]).setPending [.wr 0x04 0xFFFFFFFF]).turns = [.host] ∧
    ((State.reset.setTurns [.host]).setPending [.wr 0x04 0xFFFFFFFF]).status.busy = false ∧
    ((State.reset.setTurns [.host]).setPending [.wr 0x04 0xFFFFFFFF]).pending = [.wr 0x04 0xFFFFFFFF] ∧
    ((State.reset.setTurns [.host]).setPending [.wr 0x08 0xFFFFFFFF]).pending = [.wr 0x08 0xFFFFFFFF] := by decide

/-- A second GO and a byte write while BUSY = 1. -/
theorem witness_WritesDuringAnOperationAreLost :
    (((started State.reset 0x19).setTurns [.host]).setPending [.wr 0x00 0x1B]).turns = [.host] ∧
    (((started State.reset 0x19).setTurns [.host]).setPending [.wr 0x00 0x1B]).status.busy = true ∧
    (((started State.reset 0x19).setTurns [.host]).setPending [.wr 0x00 0x1B]).pending = [.wr 0x00 0x1B] ∧
    (((started State.reset 0x19).setTurns [.host]).setPending [.wb 0 0x55]).pending = [.wb 0 0x55] := by decide

/-- Writes to STATUS and to the last, unaligned offset; reads just past the map and of an unaligned offset. -/
theorem witness_ReadOnlyAndUnmappedOffsets :
    ((State.reset.setTurns [.host]).setPending [.wr 0x0C 0xFFFFFFFF]).turns = [.host] ∧
    ((State.reset.setTurns [.host]).setPending [.wr 0x0C 0xFFFFFFFF]).pending = [.wr 0x0C 0xFFFFFFFF] ∧
    (0x0C : RegOffset) ∉ ([0x00, 0x04, 0x08] : List RegOffset) ∧
    (0xFF : RegOffset) ∉ ([0x00, 0x04, 0x08] : List RegOffset) ∧
    ((State.reset.setTurns [.host]).setPending [.rd 0x24]).pending = [.rd 0x24] ∧
    (0x24 : RegOffset) ∉ ([0x00, 0x04, 0x08, 0x0C, 0x10, 0x14, 0x18, 0x1C, 0x20] : List RegOffset) ∧
    (0x02 : RegOffset) ∉ ([0x00, 0x04, 0x08, 0x0C, 0x10, 0x14, 0x18, 0x1C, 0x20] : List RegOffset) := by decide

/-- The first and the last mapped offset, and STATUS while BUSY = 1. -/
theorem witness_HostReadsTheMappedRegister :
    (((started (loaded [0x80] 1 5) 0x19).setTurns [.host]).setPending [.rd 0x0C]).turns = [.host] ∧
    (((started (loaded [0x80] 1 5) 0x19).setTurns [.host]).setPending [.rd 0x0C]).pending = [.rd 0x0C] ∧
    (((loaded [0x80] 1 5).setTurns [.host]).setPending [.rd 0x00]).pending = [.rd 0x00] ∧
    (((loaded [0x80] 1 5).setTurns [.host]).setPending [.rd 0x20]).pending = [.rd 0x20] ∧
    (∀ off ∈ ([0x00, 0x0C, 0x20] : List RegOffset),
      off ∈ ([0x00, 0x04, 0x08, 0x0C, 0x10, 0x14, 0x18, 0x1C, 0x20] : List RegOffset)) := by decide

/-- The smallest and the largest legal BUF_SIZE, and a step that answers a next state. -/
theorem witness_ParameterRegistersAreConstant :
    (⟨1, true, true⟩ : Params).Legal ∧ (⟨2 ^ 32 - 1, false, true⟩ : Params).Legal ∧
    ∃ t, step State.reset = .next t := ⟨by decide, by decide, _, rfl⟩

/-- A write while BUSY = 1, one at BUF_SIZE, one at the last byte. -/
theorem witness_HostByteWriteChangesOneByte :
    ((State.reset.setTurns [.host]).setPending [.wb 65536 0x55]).turns = [.host] ∧
    ((State.reset.setTurns [.host]).setPending [.wb 65536 0x55]).pending = [.wb 65536 0x55] ∧
    (started State.reset 0x19).status.busy = true ∧ State.reset.params.bufSize ≤ 65537 ∧
    State.reset.status.busy = false ∧ 65536 < State.reset.params.bufSize := by decide

/-- The last written byte, while BUSY = 1; and an index at BUF_SIZE. -/
theorem witness_HostByteReadGivesTheByte :
    (((started (loaded [0x30, 0x31] 2 0) 0x19).setTurns [.host]).setPending [.rb 1]).turns = [.host] ∧
    (((started (loaded [0x30, 0x31] 2 0) 0x19).setTurns [.host]).setPending [.rb 1]).pending = [.rb 1] ∧
    1 < (loaded [0x30, 0x31] 2 0).params.bufSize ∧ (loaded [0x30, 0x31] 2 0).buf.read 1 = some 0x31 ∧
    State.reset.params.bufSize ≤ 65537 := by decide

theorem witness_HostReadOfAnUnwrittenByteStops :
    ((State.reset.setTurns [.host]).setPending [.rb 65536]).turns = [.host] ∧
    ((State.reset.setTurns [.host]).setPending [.rb 65536]).pending = [.rb 65536] ∧
    65536 < State.reset.params.bufSize ∧ State.reset.buf.read 65536 = none := by decide

/-- An idle block; and a busy one, with the word that started it, bits 31:5 set. -/
theorem witness_BlockRunsTheLatchedCommand :
    (State.reset.setTurns [.block]).turns = [.block] ∧ State.reset.status.busy = false ∧
    ((started (loaded [0x80, 0x01] 2 0) 0x19).setTurns [.block]).turns = [.block] ∧
    (started (loaded [0x80, 0x01] 2 0) 0x19).status.busy = true ∧
    (0xFFFFFFF9 : Word) &&& 0x1F = (started (loaded [0x80, 0x01] 2 0) 0x19).readReg 0x00 ||| 1 := by decide

theorem witness_ConfigurationWriteRunsSetcfg :
    ((State.reset.setTurns [.host]).setPending [.wr 0x00 0x14]).turns = [.host] ∧
    ((State.reset.setTurns [.host]).setPending [.wr 0x00 0x14]).pending = [.wr 0x00 0x14] ∧
    (0x14 : Word).getLsbD 0 = false := by decide

theorem witness_FetchedCommandWordRunsNext :
    (0x19 : Word).getLsbD 0 = true ∧ (0x18 : Word).getLsbD 0 = false := by decide

/-- DONE = 0 before completion, DONE = 1 after it. -/
theorem witness_PollGoesOnUntilDone :
    ((State.reset.setTurns [.host]).setPending [.poll]).turns = [.host] ∧
    ((State.reset.setTurns [.host]).setPending [.poll]).pending = [.poll] ∧
    (((State.reset.setTurns [.host]).setPending [.poll]).readReg 0x0C).getLsbD 1 = false ∧
    (((State.reset.reported .none .none .none 5 0 0).setPending [.poll]).readReg 0x0C).getLsbD 1 = true := by decide

theorem witness_WithNoTurnLaidDownTheMachineMoves :
    (started State.reset 0x19).turns = [] ∧ (started State.reset 0x19).status.busy = true ∧
    State.reset.turns = [] ∧ State.reset.status.busy = false := by decide

theorem witness_AFinishedRunStaysAsItIs :
    State.reset.turns = [] ∧ State.reset.pending = [] ∧ State.reset.status.busy = false := by decide

/-- Each reserved OP, with a buffer out of range too; LEN_RANGE at 65538; a buffer of exactly BUF_SIZE. -/
theorem witness_PreChecksComeFirst :
    ((started (loaded [] 65538 0) 0x15).setTurns [.block]).turns = [.block] ∧
    (started (loaded [] 65538 0) 0x15).status.busy = true ∧ (started (loaded [] 65538 0) 0x15).ctrl.op = 0b10 ∧
    (started (loaded [] 65538 0) 0x17).ctrl.op = 0b11 ∧
    (started (loaded [] 65538 0) 0x11).ctrl.op = 0b00 ∧ (started (loaded [] 65538 0) 0x11).ctrl.present = true ∧
    (started (loaded [] 65538 0) 0x11).params.bufSize < (started (loaded [] 65538 0) 0x11).len.toNat ∧
    (started (loaded [] 65537 0) 0x13).len.toNat ≤ (started (loaded [] 65537 0) 0x13).params.bufSize ∧
    (started (loaded [] 65537 0) 0x13).ctrl.op = 0b01 ∧ (started (loaded [] 65538 0) 0x01).ctrl.present = false := by
  decide

theorem witness_LenRangeIsReportedInEitherMode :
    (loaded [] 65538 0).params.bufSize < (loaded [] 65538 0).len.toNat := by decide

theorem witness_SetcfgStoresTheFields :
    State.reset.status.busy = false ∧ (started State.reset 0x19).status.busy = true := by decide

/-- An absent buffer of bytes never written; a present buffer of no bytes. -/
theorem witness_VdecAbsentOrEmptyBuffer :
    (false = false ∨ (loaded [] 3 0).len = 0) ∧ (true = false ∨ (loaded [] 0 0).len = 0) := by decide

/-- OFFSET = LEN with nothing written; and three bytes at an offset, the buffer ending there. -/
theorem witness_VdecTruncated :
    ((loaded [] 3 3).len ≠ 0 ∧ (loaded [] 3 3).len.toNat ≤ (loaded [] 3 3).params.bufSize ∧
      (loaded [] 3 3).Holds (loaded [] 3 3).offset.toNat [] ∧
      (loaded [] 3 3).len.toNat ≤ (loaded [] 3 3).offset.toNat) ∧
    ((loaded [0x05, 0x80, 0x81, 0xFF] 4 1).len ≠ 0 ∧
      (loaded [0x05, 0x80, 0x81, 0xFF] 4 1).len.toNat ≤ (loaded [0x05, 0x80, 0x81, 0xFF] 4 1).params.bufSize ∧
      (∀ b ∈ ([0x80, 0x81, 0xFF] : List Byte), b.getLsbD 7 = true) ∧
      (loaded [0x05, 0x80, 0x81, 0xFF] 4 1).Holds 1 [0x80, 0x81, 0xFF] ∧
      (loaded [0x05, 0x80, 0x81, 0xFF] 4 1).offset.toNat + ([0x80, 0x81, 0xFF] : List Byte).length =
        (loaded [0x05, 0x80, 0x81, 0xFF] 4 1).len.toNat) := by decide

/-- A buffer of one byte; and a single byte at offset 1 of two. -/
theorem witness_VdecSingleByteForm :
    ((loaded [0x7F] 1 0).len.toNat ≤ (loaded [0x7F] 1 0).params.bufSize ∧
      (loaded [0x7F] 1 0).offset.toNat < (loaded [0x7F] 1 0).len.toNat ∧
      (loaded [0x7F] 1 0).buf.read (loaded [0x7F] 1 0).offset.toNat = some 0x7F ∧ (0x7F : Byte).getLsbD 7 = false ∧
      (loaded [0x7F] 1 0).len = 1) ∧
    ((loaded [0x05, 0x06] 2 1).offset.toNat < (loaded [0x05, 0x06] 2 1).len.toNat ∧
      (loaded [0x05, 0x06] 2 1).buf.read (loaded [0x05, 0x06] 2 1).offset.toNat = some 0x06 ∧
      (0x06 : Byte).getLsbD 7 = false ∧ 1 < (loaded [0x05, 0x06] 2 1).len.toNat) := by decide

/-- Three bytes and a terminating one that ends the buffer; one and a terminating one with a byte after it. -/
theorem witness_VdecMultiByteForm :
    ((loaded [0xFF, 0xFF, 0xFF, 0x7F] 4 0).len.toNat ≤ (loaded [0xFF, 0xFF, 0xFF, 0x7F] 4 0).params.bufSize ∧
      (∀ b ∈ ([0xFF, 0xFF, 0xFF] : List Byte), b.getLsbD 7 = true) ∧ (0x7F : Byte).getLsbD 7 = false ∧
      (loaded [0xFF, 0xFF, 0xFF, 0x7F] 4 0).Holds 0 ([0xFF, 0xFF, 0xFF] ++ [0x7F]) ∧
      (loaded [0xFF, 0xFF, 0xFF, 0x7F] 4 0).offset.toNat + 3 + 1 = (loaded [0xFF, 0xFF, 0xFF, 0x7F] 4 0).len.toNat) ∧
    ((loaded [0x80, 0x01, 0x00] 3 0).len.toNat ≤ (loaded [0x80, 0x01, 0x00] 3 0).params.bufSize ∧
      (0x80 : Byte).getLsbD 7 = true ∧ (0x01 : Byte).getLsbD 7 = false ∧
      (loaded [0x80, 0x01, 0x00] 3 0).Holds 0 ([0x80] ++ [0x01]) ∧
      (loaded [0x80, 0x01, 0x00] 3 0).offset.toNat + 1 + 1 < (loaded [0x80, 0x01, 0x00] 3 0).len.toNat) := by decide

/-- Four bytes, no fifth in the buffer; and a fifth never written. -/
theorem witness_VdecOversize :
    (loaded [0xFF, 0x80, 0xFF, 0xFF] 4 0).len.toNat ≤ (loaded [0xFF, 0x80, 0xFF, 0xFF] 4 0).params.bufSize ∧
    (∀ b ∈ ([0xFF, 0x80, 0xFF, 0xFF] : List Byte), b.getLsbD 7 = true) ∧
    (loaded [0xFF, 0x80, 0xFF, 0xFF] 4 0).Holds 0 [0xFF, 0x80, 0xFF, 0xFF] ∧
    (loaded [0xFF, 0x80, 0xFF, 0xFF] 4 0).offset.toNat + 4 ≤ (loaded [0xFF, 0x80, 0xFF, 0xFF] 4 0).len.toNat ∧
    (loaded [0xFF, 0x80, 0xFF, 0xFF] 5 0).buf.read 4 = none := by decide

/-- A success, and a lenient error of VDEC's own. -/
theorem witness_VdecValueIsBelowTwoToThe28 :
    (∃ t, exec (.vdec true true) (loaded [0xFF, 0xFF, 0xFF, 0x7F] 4 0) = .next t ∧ t.status.reason = .none) ∧
    ∃ t, exec (.vdec false true) (loaded [] 0 0) = .next t ∧ t.status.reason ≠ .none ∧
      t.status.reason ≠ .lenRange ∧ t.value = 0xFFFFFFFF := ⟨⟨_, rfl, rfl⟩, _, rfl, by decide⟩

theorem witness_VdecStopsExactlyAtAnUnwrittenByte :
    exec (.vdec true true) (loaded [0x80, 0x81, 0x82] 4 0) = .fault (.blockReadUnwritten 3) := rfl

theorem witness_VdecReadsAtMostFourBytes :
    ∀ j, j < 4 → Memory.read [(0, 0x80), (1, 0x01), (9, 0x55)] j = (loaded [0x80, 0x01] 2 0).buf.read j := by decide

theorem witness_SdecAbsentBuffer : (loaded [] 0 0).len = 0 := by decide

/-- Buffers of 0 bytes and of 1 byte never written. -/
theorem witness_SdecShortBuffer :
    ((loaded [] 0 0).len.toNat < 2 ∧ (loaded [] 0 0).len.toNat ≤ (loaded [] 0 0).params.bufSize) ∧
    ((loaded [] 1 0).len.toNat < 2 ∧ (loaded [] 1 0).len.toNat ≤ (loaded [] 1 0).params.bufSize) := by decide

/-- One byte too few, the string bytes never written. -/
theorem witness_SdecMissingBytes :
    2 ≤ (loaded [0x01, 0x01] 258 0).len.toNat ∧
    (loaded [0x01, 0x01] 258 0).len.toNat ≤ (loaded [0x01, 0x01] 258 0).params.bufSize ∧
    (loaded [0x01, 0x01] 258 0).buf.read 0 = some 0x01 ∧ (loaded [0x01, 0x01] 258 0).buf.read 1 = some 0x01 ∧
    (loaded [0x01, 0x01] 258 0).len.toNat < 2 + ((0x01 : Byte).toNat * 256 + (0x01 : Byte).toNat) := by decide

/-- One byte after the string, with STR_TRAILING_REJECT = 1 and = 0. -/
theorem witness_SdecTrailingBytes :
    (loadedWith true true [0x00, 0x01, 0xFF, 0x62] 4).len.toNat ≤
      (loadedWith true true [0x00, 0x01, 0xFF, 0x62] 4).params.bufSize ∧
    (loadedWith true true [0x00, 0x01, 0xFF, 0x62] 4).buf.read 0 = some 0x00 ∧
    (loadedWith true true [0x00, 0x01, 0xFF, 0x62] 4).buf.read 1 = some 0x01 ∧
    2 + ((0x00 : Byte).toNat * 256 + (0x01 : Byte).toNat) < (loadedWith true true [0x00, 0x01, 0xFF, 0x62] 4).len.toNat ∧
    (loadedWith true true [0x00, 0x01, 0xFF, 0x62] 4).params.strTrailingReject = true ∧
    (loadedWith true false [0x00, 0x01, 0xFF, 0x62] 4).params.strTrailingReject = false := by decide

/-- The byte FF splits into no rows: it fits the first range of none. -/
theorem ff_splits_into_no_rows : ¬SplitsIntoRows [0xFF] := by
  rintro ⟨parts, e, h⟩
  cases parts with
  | nil => cases e
  | cons p ps =>
    obtain ⟨row, hr, hp⟩ := h p (List.mem_cons_self ..)
    cases p with
    | nil => cases hp; exact absurd hr (by decide)
    | cons b bs =>
      injection e with e1 e2
      subst e1
      cases hp with
      | cons hb _ =>
        have hff : ∀ row ∈ utf8Rows, ∀ r ∈ row.head?, ¬(r.lo ≤ (0xFF : Byte) ∧ (0xFF : Byte) ≤ r.hi) := by decide
        exact hff _ hr _ rfl hb

theorem witness_SdecBadUtf8 :
    (loadedWith true true [0x00, 0x01, 0xFF] 3).len.toNat ≤ (loadedWith true true [0x00, 0x01, 0xFF] 3).params.bufSize ∧
    (loadedWith true true [0x00, 0x01, 0xFF] 3).buf.read 0 = some 0x00 ∧
    (loadedWith true true [0x00, 0x01, 0xFF] 3).buf.read 1 = some 0x01 ∧
    ([0xFF] : List Byte).length = (0x00 : Byte).toNat * 256 + (0x01 : Byte).toNat ∧
    (loadedWith true true [0x00, 0x01, 0xFF] 3).len.toNat = 2 + ([0xFF] : List Byte).length ∧
    (loadedWith true true [0x00, 0x01, 0xFF] 3).Holds 2 [0xFF] ∧
    (loadedWith true true [0x00, 0x01, 0xFF] 3).params.utf8Validate = true ∧ ¬SplitsIntoRows [0xFF] :=
  ⟨by decide, by decide, by decide, by decide, by decide, by decide, by decide, ff_splits_into_no_rows⟩

/-- The empty string; and with both parameters 1 the string "a". -/
theorem witness_SdecSuccess :
    ((loaded [0x00, 0x00] 2 7).len.toNat ≤ (loaded [0x00, 0x00] 2 7).params.bufSize ∧
      (loaded [0x00, 0x00] 2 7).buf.read 0 = some 0x00 ∧ (loaded [0x00, 0x00] 2 7).buf.read 1 = some 0x00 ∧
      2 + ((0x00 : Byte).toNat * 256 + (0x00 : Byte).toNat) ≤ (loaded [0x00, 0x00] 2 7).len.toNat ∧
      (loaded [0x00, 0x00] 2 7).params.strTrailingReject = false ∧
      (loaded [0x00, 0x00] 2 7).params.utf8Validate = false) ∧
    ((loadedWith true true [0x00, 0x01, 0x61] 3).len.toNat = 2 + ((0x00 : Byte).toNat * 256 + (0x01 : Byte).toNat) ∧
      (loadedWith true true [0x00, 0x01, 0x61] 3).buf.read 0 = some 0x00 ∧
      (loadedWith true true [0x00, 0x01, 0x61] 3).buf.read 1 = some 0x01 ∧
      ([0x61] : List Byte).length = (0x00 : Byte).toNat * 256 + (0x01 : Byte).toNat ∧
      (loadedWith true true [0x00, 0x01, 0x61] 3).Holds 2 [0x61] ∧ SplitsIntoRows [0x61]) :=
  ⟨by decide, by decide, by decide, by decide, by decide, by decide, [[0x61]], rfl, fun p hp => by
    rw [List.mem_singleton.mp hp]
    exact ⟨[⟨0x00, 0x7F⟩], by decide, .cons (by decide) .nil⟩⟩

theorem witness_DecodesCompleteOnWrittenBytes :
    (loaded [0x05, 0x80, 0x01] 3 1).VarintWritten ∧ (loaded [0x00, 0x01, 0x61] 3 0).BufferWritten := by decide

/-- With UTF8_VALIDATE = 0 two buffers that agree at indices 0 and 1 alone. -/
theorem witness_SdecReadsNeitherOffsetNorBeyondLen :
    (loaded [0x00, 0x01, 0x61] 3 0).params.utf8Validate = false ∧
    ∀ j, j < 2 → Memory.read [(0, 0x00), (1, 0x01), (2, 0xFF)] j = (loaded [0x00, 0x01, 0x61] 3 0).buf.read j := by
  decide

/-- BUF[0]; BUF[1]; with both parameters 1 the first unwritten string byte, and the last one. -/
theorem witness_SdecStopsExactlyAtAnUnwrittenByte :
    exec (.sdec true true) (loaded [] 2 0) = .fault (.blockReadUnwritten 0) ∧
    exec (.sdec false true) (loaded [0x00] 2 0) = .fault (.blockReadUnwritten 1) ∧
    exec (.sdec true true) (loadedWith true true [0x00, 0x02] 4) = .fault (.blockReadUnwritten 2) ∧
    exec (.sdec true true) (loadedWith true true [0x00, 0x02, 0x61] 4) = .fault (.blockReadUnwritten 3) :=
  ⟨rfl, rfl, rfl, rfl⟩

/-- The last code points before and the first after the surrogates, and U+10FFFF (30_encoding.md R80). -/
theorem witness_Utf8CheckAcceptsExactlyTheBytesOfTexts :
    utf8OfText [0xD7FF, 0xE000, 0x10FFFF] = some [0xED, 0x9F, 0xBF, 0xEE, 0x80, 0x80, 0xF4, 0x8F, 0xBF, 0xBF] ∧
    wellFormedUtf8 [0xED, 0x9F, 0xBF, 0xEE, 0x80, 0x80, 0xF4, 0x8F, 0xBF, 0xBF] = true ∧
    wellFormedUtf8 [0xED, 0xA0, 0x80] = false := by decide

theorem witness_OperationsKeepTheirInputs :
    (Instr.sdec false true).isGo = true ∧ ∃ t, exec (.sdec false true) (loaded [0x00, 0x00] 2 0) = .next t :=
  ⟨rfl, _, rfl⟩

theorem witness_StrictAndLenientDifferInTheReport :
    ((∃ t, exec (.vdec true true) (loaded [0x80] 1 0) = .next t) ∧
      ∃ u, exec (.vdec false true) (loaded [0x80] 1 0) = .next u ∧ u.status.reason ≠ .none ∧
        u.status.reason ≠ .lenRange) ∧
    (∃ t, exec (.sdec true true) (loaded [] 65538 0) = .next t ∧ t.status.reason = .lenRange) ∧
      ∃ u, exec (.sdec false true) (loaded [] 65538 0) = .next u :=
  ⟨⟨⟨_, rfl⟩, _, rfl, by decide⟩, ⟨_, rfl, rfl⟩, _, rfl⟩

theorem witness_EarlierReportsDoNotMatter : (Instr.rsv3 true false).isGo = true := by decide

/-- A step for each of the four cases: a host read, a reset, an accepted GO, a completion; BUSY and DONE not both 1. -/
theorem witness_StatusHasThreeTransitions :
    (∃ t, hostStep State.reset (.rd 0x0C) = .next t) ∧ (∃ t, step (State.reset.setTurns [.reset]) = .next t) ∧
    (∃ t, hostStep State.reset (.wr 0x00 0x01) = .next t ∧ t.status.busy = true) ∧
    (∃ t, step (started State.reset 0x01) = .next t ∧ t.status.done = true) ∧
    ¬(State.reset.status.busy = true ∧ State.reset.status.done = true) :=
  ⟨⟨_, rfl⟩, ⟨_, rfl⟩, ⟨_, rfl, rfl⟩, ⟨_, rfl, rfl⟩, by decide⟩

theorem witness_InputsAreStableWhileBusy :
    ∃ t, hostStep (started State.reset 0x19) (.wr 0x04 9) = .next t ∧ (started State.reset 0x19).status.busy = true ∧
      t.status.busy = true := ⟨_, rfl, rfl, rfl⟩

/-- The invariant holds with an operation in progress, and the step completes it. -/
theorem witness_EveryStepKeepsTheInvariant :
    (started State.reset 0x01).Inv ∧ ∃ t, step (started State.reset 0x01) = .next t :=
  ⟨⟨by decide, by decide, by decide, by decide, by decide, .inl (by decide)⟩, _, rfl⟩

theorem witness_ResetHasTheInvariant : (⟨1, false, false⟩ : Params).Legal := by decide

/-- A run that stops, and one that completes after a host turn. -/
theorem witness_EveryOperationEnds :
    (started (loaded [] 1 0) 0x19).status.busy = true ∧
    ((started (loaded [0x7F] 1 0) 0x19).setTurns [.host, .block]).status.busy = true := by decide

theorem witness_EncVarintAbsentAndNegative : (-1 : Int) < 0 := by decide

theorem witness_VdecInvertsEncVarint :
    268435455 ≤ 268435455 ∧ encVarint (some ((268435455 : Nat) : Int)) true = .ok [0xFF, 0xFF, 0xFF, 0x7F] ∧
    (loaded [0xFF, 0xFF, 0xFF, 0x7F] 4 0).Holds 0 (pack [0xFF, 0xFF, 0xFF, 0x7F]) ∧
    (loaded [0xFF, 0xFF, 0xFF, 0x7F] 4 0).len.toNat = (pack [0xFF, 0xFF, 0xFF, 0x7F]).length ∧
    (loaded [0xFF, 0xFF, 0xFF, 0x7F] 4 0).offset = 0 ∧
    (pack [0xFF, 0xFF, 0xFF, 0x7F]).length ≤ (loaded [0xFF, 0xFF, 0xFF, 0x7F] 4 0).params.bufSize :=
  ⟨le_rfl, rfl, by decide, by decide, by decide, by decide⟩

theorem witness_VdecRejectsLongEncodings :
    268435455 < 268435456 ∧ encVarint (some ((268435456 : Nat) : Int)) true = .ok [0x80, 0x80, 0x80, 0x80, 0x01] ∧
    (loaded [0x80, 0x80, 0x80, 0x80, 0x01] 5 0).Holds 0 (pack [0x80, 0x80, 0x80, 0x80, 0x01]) ∧
    (loaded [0x80, 0x80, 0x80, 0x80, 0x01] 5 0).len.toNat = (pack [0x80, 0x80, 0x80, 0x80, 0x01]).length ∧
    (loaded [0x80, 0x80, 0x80, 0x80, 0x01] 5 0).offset = 0 ∧
    (pack [0x80, 0x80, 0x80, 0x80, 0x01]).length ≤ (loaded [0x80, 0x80, 0x80, 0x80, 0x01] 5 0).params.bufSize :=
  ⟨by decide, rfl, by decide, by decide, by decide, by decide⟩

/-- A text of 65536 one-byte code points. -/
theorem utf8OfText_replicate_a (n : Nat) : utf8OfText (List.replicate n 0x61) = some (List.replicate n 0x61) := by
  induction n with
  | zero => rfl
  | succ n ih => rw [List.replicate_succ, utf8OfText, ih]; rfl

/-- A text of 65535 bytes; a surrogate, which has no conversion; and a text of 65536 bytes. -/
theorem witness_EncStringSentinelsAndRefusal :
    utf8OfText (List.replicate 65535 0x61) = some (List.replicate 65535 0x61) ∧
    (List.replicate 65535 (0x61 : Byte)).length ≤ 65535 ∧
    utf8OfText [0xD800] = none ∧
    utf8OfText (List.replicate 65536 0x61) = some (List.replicate 65536 0x61) ∧
    65535 < (List.replicate 65536 (0x61 : Byte)).length :=
  ⟨utf8OfText_replicate_a _, by rw [List.length_replicate], rfl, utf8OfText_replicate_a _, by
    rw [List.length_replicate]; decide⟩

theorem witness_SdecInvertsEncString :
    utf8OfText [0xE9] = some [0xC3, 0xA9] ∧ encString (some [0xE9]) true = .ok (.bytes [0x00, 0x02, 0xC3, 0xA9]) ∧
    (loadedWith true true [0x00, 0x02, 0xC3, 0xA9] 4).Holds 0 [0x00, 0x02, 0xC3, 0xA9] ∧
    (loadedWith true true [0x00, 0x02, 0xC3, 0xA9] 4).len.toNat = ([0x00, 0x02, 0xC3, 0xA9] : List Byte).length ∧
    ([0x00, 0x02, 0xC3, 0xA9] : List Byte).length ≤
      (loadedWith true true [0x00, 0x02, 0xC3, 0xA9] 4).params.bufSize :=
  ⟨rfl, rfl, by decide, by decide, by decide⟩

end Sys2Proof.Tests
end

section
/-! PROOFS. 10_state.md, the reports: what the decoders and the completion write may put into STATUS and the results, and the
invariant every step keeps (O50, O51). -/

namespace Sys2Proof.Machine

/-! ### What the decoders may end with -/

/-- What VDEC may end with: a reason of its own, or a value the format holds (40_varint_decode.md R107). -/
def VdecResultLegal : Except Reason Word → Prop
  | .error r => r.ofVdec = true
  | .ok v => v.toNat ≤ Config.maxVarintValue

/-- What SDEC may end with: a reason of its own, or any length. -/
def SdecResultLegal : Except Reason (BitVec 16) → Prop
  | .error r => r.ofSdec = true
  | .ok _ => True

/-- A value of at most four digits is at most 2^28 - 1 (00_scope.md R7). -/
theorem le_maxVarintValue_of_lt_pow {v k : Nat} (hk : k ≤ 4) (h : v < 128 ^ k) : v ≤ Config.maxVarintValue := by
  have h4 : 128 ^ k ≤ 128 ^ 4 := Nat.pow_le_pow_right (by decide) hk
  simp only [Config.maxVarintValue]
  omega

/-- One more byte keeps the accumulated value below 128 to the number of digits. -/
theorem Walk.take_acc_lt {w : Walk} (b : Byte) (hk : w.k < 4) (ha : w.acc.toNat < 128 ^ w.k) :
    (w.take b).acc.toNat < 128 ^ (w.take b).k := by
  have hd : b.toNat % 128 * 128 ^ w.k ≤ 127 * 128 ^ w.k :=
    Nat.mul_le_mul_right _ (Nat.le_of_lt_succ (Nat.mod_lt _ (by decide)))
  rw [Walk.take_acc_toNat b hk ha, show (w.take b).k = w.k + 1 from rfl, pow_succ]
  omega

/-- The loop ends legally: with `left` bytes left to read, at most four digits in all have been taken at the end. -/
theorem readDigits_resultLegal {s : State} {r : Except Reason Word} :
    ∀ (left : Nat) (w : Walk), left + w.k ≤ 4 → w.acc.toNat < 128 ^ w.k → readDigits s left w = .ok r →
      VdecResultLegal r := by
  intro left
  induction left with
  | zero =>
    intro w _ _ h
    cases h
    rfl
  | succ n ih =>
    intro w hk ha h
    have hk' : n + (w.take (0 : Byte)).k ≤ 4 := by simp only [Walk.take]; omega
    rcases readDigits_cases s n w with ⟨-, e⟩ | ⟨-, -, e⟩ | ⟨b, -, -, -, e⟩ | ⟨b, -, -, -, e⟩ <;> rw [e] at h
    · cases h; rfl
    · cases h
    · exact ih (w.take b) hk' (Walk.take_acc_lt b (by omega) ha) h
    · split at h <;> cases h
      · exact le_maxVarintValue_of_lt_pow (Nat.le_of_add_left_le hk') (Walk.take_acc_lt b (by omega) ha)
      · rfl

/-- VDEC ends with a reason of its own or a value below 2^28 (40_varint_decode.md R107). -/
theorem vdecResult_legal {s : State} {present : Bool} {r : Except Reason Word} (h : vdecResult s present = .ok r) :
    VdecResultLegal r := by
  have hstart : ∀ b, ((Walk.start s.offset).take b).acc.toNat < 128 ^ ((Walk.start s.offset).take b).k := fun b =>
    Walk.take_acc_lt b (by simp [Walk.start]) (by simp [Walk.start])
  unfold vdecResult at h
  split at h
  · cases h; rfl
  · split at h
    · cases h; rfl
    · split at h
      · cases h
      · next b _ =>
        split at h
        · exact readDigits_resultLegal _ _ (by simp [Walk.take, Walk.start, Config.maxVarintBytes]) (hstart b) h
        · split at h <;> cases h
          · rfl
          · exact le_maxVarintValue_of_lt_pow (by simp [Walk.take, Walk.start]) (hstart b)

/-- The checks on the text end with a reason of SDEC or with the declared length. -/
theorem sdecText_legal {s : State} {n : BitVec 16} {r : Except Reason (BitVec 16)} (h : sdecText s n = .ok r) :
    SdecResultLegal r := by
  unfold sdecText at h
  split at h
  · cases h; rfl
  · split at h
    · cases h; rfl
    · split at h
      · split at h
        · cases h
        · split at h <;> cases h
          · trivial
          · rfl
      · cases h; trivial

/-- SDEC ends with a reason of its own or with a length. -/
theorem sdecResult_legal {s : State} {present : Bool} {r : Except Reason (BitVec 16)}
    (h : sdecResult s present = .ok r) : SdecResultLegal r := by
  unfold sdecResult at h
  split at h
  · cases h; rfl
  · split at h
    · cases h; rfl
    · split at h
      · cases h
      · split at h
        · cases h
        · exact sdecText_legal h

/-! ### The completion write leaves a legal report (60_exceptions.md R184) -/

theorem State.reportLegal_finishV (s : State) {v : Word} (h : v.toNat ≤ Config.maxVarintValue) :
    (s.complete (finishV v)).ReportLegal := .inl ⟨rfl, rfl, rfl, h, rfl, rfl⟩

theorem State.reportLegal_finishS (s : State) (n : BitVec 16) : (s.complete (finishS n)).ReportLegal :=
  .inr (.inl ⟨rfl, rfl, rfl, rfl, rfl⟩)

theorem State.reportLegal_raiseStrict (s : State) {r : Reason} (h : r ≠ .none) :
    (s.complete (raiseStrict r)).ReportLegal := .inr (.inr (.inl ⟨h, rfl, rfl, rfl, rfl, rfl⟩))

/-- A failed pre-check reports as a strict error of kind INVALID_ARGUMENT (60_exceptions.md R183). -/
theorem failPre_eq_raiseStrict {r : Reason} (h : r.kind = .invalidArgument) : failPre r = raiseStrict r := by
  simp only [failPre, raiseStrict, h]

theorem State.reportLegal_failPre (s : State) {r : Reason} (h : r.kind = .invalidArgument) :
    (s.complete (failPre r)).ReportLegal := by
  rw [failPre_eq_raiseStrict h]
  exact s.reportLegal_raiseStrict (by rintro rfl; cases h)

theorem State.reportLegal_vdecCompletion (s : State) (strict : Bool) {r : Except Reason Word} (h : VdecResultLegal r) :
    (s.complete (vdecCompletion strict r)).ReportLegal := by
  cases r with
  | ok v => exact s.reportLegal_finishV h
  | error r =>
    cases strict with
    | true => exact s.reportLegal_raiseStrict (by rintro rfl; cases h)
    | false => exact .inr (.inr (.inr (.inl ⟨h, rfl, rfl, rfl, rfl, rfl⟩)))

theorem State.reportLegal_sdecCompletion (s : State) (strict : Bool) {r : Except Reason (BitVec 16)}
    (h : SdecResultLegal r) : (s.complete (sdecCompletion strict r)).ReportLegal := by
  cases r with
  | ok n => exact s.reportLegal_finishS n
  | error r =>
    cases strict with
    | true => exact s.reportLegal_raiseStrict (by rintro rfl; cases h)
    | false => exact .inr (.inr (.inr (.inr ⟨h, rfl, rfl, rfl, rfl, rfl⟩)))

/-- A command with GO = 1 that completes leaves a row of the table of 60_exceptions.md R184. -/
theorem exec_go_reportLegal {i : Instr} {s t : State} (hg : i.isGo = true) (h : exec i s = .next t) :
    t.ReportLegal := by
  cases i with
  | vdec strict present =>
    change execVdec strict present s = .next t at h
    rcases execVdec_cases strict present s with ⟨-, e⟩ | ⟨-, ⟨f, -, e⟩ | ⟨r, hr, e⟩⟩ <;> rw [e] at h <;> cases h
    · exact s.reportLegal_failPre rfl
    · exact s.reportLegal_vdecCompletion strict (vdecResult_legal hr)
  | sdec strict present =>
    change execSdec strict present s = .next t at h
    rcases execSdec_cases strict present s with ⟨-, e⟩ | ⟨-, ⟨f, -, e⟩ | ⟨r, hr, e⟩⟩ <;> rw [e] at h <;> cases h
    · exact s.reportLegal_failPre rfl
    · exact s.reportLegal_sdecCompletion strict (sdecResult_legal hr)
  | rsv2 strict present => cases h; exact s.reportLegal_failPre rfl
  | rsv3 strict present => cases h; exact s.reportLegal_failPre rfl
  | setcfg op strict present => cases hg

/-! ### Each operation keeps the invariant -/

/-- What the host has yet to do and has noted is no part of the invariant. -/
theorem State.Inv.of_same_block {s t : State} (h : s.Inv)
    (e : t = { s with pending := t.pending, turns := t.turns, noted := t.noted }) : t.Inv := by
  rw [e]
  exact ⟨h.params_legal, h.buf_wf, h.buf_within, h.not_busy_and_done, h.walk_while_busy, h.report_legal⟩

/-- The internal state of an idle block is gone (10_state.md R37). -/
theorem State.Inv.walk_of_idle {s : State} (h : s.Inv) (hb : s.status.busy = false) : s.walk = none := by
  simpa [hb] using h.walk_while_busy

theorem State.Inv.storeCommand {s : State} (h : s.Inv) (op : BitVec 2) (strict present : Bool) :
    (s.storeCommand op strict present).Inv :=
  ⟨h.params_legal, h.buf_wf, h.buf_within, h.not_busy_and_done, h.walk_while_busy, h.report_legal⟩

/-- An accepted GO keeps the earlier report until completion (10_state.md R28). -/
theorem State.Inv.startOperation {s : State} (h : s.Inv) : s.startOperation.Inv where
  params_legal := h.params_legal
  buf_wf := h.buf_wf
  buf_within := h.buf_within
  not_busy_and_done := by simp
  walk_while_busy := by simp
  report_legal := h.report_legal

theorem State.Inv.writeReg {s : State} (h : s.Inv) (off : RegOffset) (w : Word) : (s.writeReg off w).Inv := by
  rcases s.writeReg_cases off w with e | ⟨-, -, -, e⟩ | ⟨-, -, -, e⟩ | ⟨-, -, e⟩ | ⟨hb, -, e⟩ <;> rw [e]
  · exact h
  · exact (h.storeCommand _ _ _).startOperation
  · exact h.storeCommand _ _ _
  · exact ⟨h.params_legal, h.buf_wf, h.buf_within, h.not_busy_and_done, h.walk_while_busy, h.report_legal⟩
  · exact ⟨h.params_legal, h.buf_wf, h.buf_within, h.not_busy_and_done, by simp [hb, h.walk_of_idle hb],
      h.report_legal⟩

theorem State.Inv.hostWriteBuf {s : State} (h : s.Inv) (i : Nat) (b : Byte) : (s.hostWriteBuf i b).Inv := by
  rcases s.hostWriteBuf_cases i b with ⟨-, e⟩ | ⟨-, hi, e⟩ <;> rw [e]
  · exact h
  · exact ⟨h.params_legal, Memory.wf_write i b h.buf_wf, Memory.within_write b hi h.buf_within, h.not_busy_and_done,
      h.walk_while_busy, h.report_legal⟩

theorem State.Inv.complete {s : State} (h : s.Inv) {c : Completion} (hr : (s.complete c).ReportLegal) :
    (s.complete c).Inv where
  params_legal := h.params_legal
  buf_wf := h.buf_wf
  buf_within := h.buf_within
  not_busy_and_done := by simp
  walk_while_busy := by simp
  report_legal := hr

/-- The reset values are the report of a VDEC with value 0. -/
theorem State.resetWith_inv {p : Params} (h : p.Legal) : (State.resetWith p).Inv where
  params_legal := h
  buf_wf := rfl
  buf_within := rfl
  not_busy_and_done := by simp [State.resetWith, Status.reset]
  walk_while_busy := rfl
  report_legal := .inl ⟨rfl, rfl, rfl, Nat.zero_le _, rfl, rfl⟩

theorem State.Inv.resetBlock {s : State} (h : s.Inv) : s.resetBlock.Inv :=
  (State.resetWith_inv h.params_legal).of_same_block rfl

theorem blockTurn_keeps_inv {s t : State} (hi : s.Inv) (h : blockTurn s = .next t) : t.Inv := by
  rcases blockTurn_next h with ⟨-, rfl⟩ | ⟨-, he, c, rfl⟩
  · exact hi
  · exact hi.complete (exec_go_reportLegal s.latchedCommand_isGo he)

theorem hostTurn_keeps_inv {s t : State} (hi : s.Inv) (h : hostTurn s = .next t) : t.Inv := by
  rcases hostTurn_next h with ⟨-, rfl⟩ | ⟨op, ops, -, ⟨off, w, -, rfl⟩ | ⟨i, b, -, rfl⟩ | ⟨r, rfl⟩ | ⟨r, rfl⟩⟩
  · exact hi
  · exact State.Inv.writeReg (hi.of_same_block rfl) off w
  · exact State.Inv.hostWriteBuf (hi.of_same_block rfl) i b
  · exact hi.of_same_block rfl
  · exact hi.of_same_block rfl

/-- Settles O50: a step is a reset, the block's turn or the host's, and each keeps the invariant. -/
theorem everyStepKeepsTheInvariant : Obligations.EveryStepKeepsTheInvariant := by
  intro s t hi h
  have hts : ∀ ts, (s.setTurns ts).Inv := fun ts => hi.of_same_block rfl
  rcases step_turn s with ⟨ts, -, e⟩ | ⟨ts, -, e⟩ | ⟨ts, -, e⟩ <;> rw [e] at h
  · cases h
    exact (hts ts).resetBlock
  · exact blockTurn_keeps_inv (hts ts) h
  · exact hostTurn_keeps_inv (hts ts) h

/-- Settles O51: the reference configuration is legal, and the reset state has the invariant with any legal one. -/
theorem resetHasTheInvariant : Obligations.ResetHasTheInvariant :=
  ⟨State.resetWith_inv (by decide), fun _ hp => State.resetWith_inv hp⟩

end Sys2Proof.Machine
end

section
/-! PROOFS. 10_state.md R22 to R35, the words: a command word as its fields, the STATUS, CFG and BUFSZ words field by
field, and what each register reads (O13, and the facts O7, O8, O14, O18 and O20 rest on). -/

namespace Sys2Proof

/-! ### A command word and its fields (30_encoding.md R70) -/

/-- `27'b0, PRESENT, STRICT, OP, GO`. -/
theorem commandWord_eq_append (go : Bool) (op : BitVec 2) (strict present : Bool) :
    commandWord go op.toNat strict present =
      (0 : BitVec 27) ++ BitVec.ofBool present ++ BitVec.ofBool strict ++ op ++ BitVec.ofBool go := by
  revert go op strict present
  decide

/-- Bits 4:0 of a word, as a number. -/
theorem and_0x1F_toNat (w : Word) : (w &&& 0x1F).toNat = w.toNat % 32 := by
  rw [BitVec.toNat_and]
  exact Nat.and_two_pow_sub_one_eq_mod w.toNat 5

/-- Bits 4:0 of a word are the word of its fields. -/
theorem commandWord_fields (w : Word) :
    commandWord (cmdGo w) (cmdOp w).toNat (cmdStrict w) (cmdPresent w) = w &&& 0x1F := by
  apply BitVec.eq_of_toNat_eq
  rw [commandWord_toNat _ _ _ (cmdOp w).isLt, and_0x1F_toNat]
  simp only [cmdGo, cmdOp, cmdStrict, cmdPresent, BitVec.getLsbD, Nat.toNat_testBit, BitVec.extractLsb'_toNat,
    Nat.shiftRight_eq_div_pow]
  omega

/-- Clearing GO leaves bits 4:1 (10_state.md R24). -/
theorem commandWord_and_0x1E (go : Bool) (op : BitVec 2) (strict present : Bool) :
    commandWord go op.toNat strict present &&& 0x1E = commandWord false op.toNat strict present := by
  revert go op strict present
  decide

theorem commandWord_or_one (op : BitVec 2) (strict present : Bool) :
    commandWord false op.toNat strict present ||| 1 = commandWord true op.toNat strict present := by
  revert op strict present
  decide

/-- Decoding depends on bits 4:0 alone (30_encoding.md R73). -/
theorem decodeWord_and_0x1F (w : Word) : decodeWord (w &&& 0x1F) = decodeWord w := by
  have hop := (cmdOp w).isLt
  rw [← commandWord_fields, decodeWord, decodeWord, cmdGo_commandWord _ _ _ hop, cmdOp_commandWord _ _ _ hop,
    cmdStrict_commandWord _ _ _ hop, cmdPresent_commandWord _ _ _ hop, BitVec.ofNat_toNat, BitVec.setWidth_eq]

end Sys2Proof

namespace Sys2Proof.Machine

/-! ### The mapped registers (10_state.md R22) -/

@[simp] theorem State.readReg_ctrl (s : State) : s.readReg 0x00 = s.ctrl.word := rfl
@[simp] theorem State.readReg_len (s : State) : s.readReg 0x04 = s.len := rfl
@[simp] theorem State.readReg_offset (s : State) : s.readReg 0x08 = s.offset := rfl
@[simp] theorem State.readReg_status (s : State) : s.readReg 0x0C = s.status.word := rfl
@[simp] theorem State.readReg_value (s : State) : s.readReg 0x10 = s.value := rfl
@[simp] theorem State.readReg_slen (s : State) : s.readReg 0x14 = s.slen.setWidth 32 := rfl
@[simp] theorem State.readReg_soff (s : State) : s.readReg 0x18 = s.soff := rfl
@[simp] theorem State.readReg_cfg (s : State) : s.readReg 0x1C = cfgWord s.params := rfl
@[simp] theorem State.readReg_bufsz (s : State) : s.readReg 0x20 = bufszWord s.params := rfl

/-! ### The fields of a word, from its number -/

/-- A field of a word holds a number that the word's number has at that place. -/
theorem extractLsb'_eq_ofNat {x : Word} {start len n : Nat} (h : x.toNat / 2 ^ start % 2 ^ len = n % 2 ^ len) :
    x.extractLsb' start len = BitVec.ofNat len n :=
  BitVec.eq_of_toNat_eq (by rw [BitVec.extractLsb'_toNat, Nat.shiftRight_eq_div_pow, BitVec.toNat_ofNat, h])

/-- A bit of a word is a flag that the word's number has at that place. -/
theorem getLsbD_eq_of_toNat {x : Word} {i : Nat} {b : Bool} (h : x.toNat / 2 ^ i % 2 = b.toNat) : x.getLsbD i = b := by
  rw [BitVec.getLsbD, Nat.testBit_eq_decide_div_mod_eq, h]
  cases b <;> rfl

/-! ### STATUS (10_state.md R27) -/

theorem ErrKind.code_lt (e : ErrKind) : e.code < 4 := by cases e <;> decide

theorem Sentinel.code_lt (e : Sentinel) : e.code < 4 := by cases e <;> decide

theorem Reason.code_lt (r : Reason) : r.code < 16 := by cases r <;> decide

/-- Each field of STATUS fits its bits. -/
theorem Status.fields_lt (st : Status) :
    st.busy.toNat < 2 ∧ st.done.toNat < 2 ∧ st.err.code < 4 ∧ st.sent.code < 4 ∧ st.reason.code < 16 :=
  ⟨Bool.toNat_lt _, Bool.toNat_lt _, st.err.code_lt, st.sent.code_lt, st.reason.code_lt⟩

section StatusFields

variable (st : Status)

/-- The STATUS word as a number: no field runs into the next. -/
theorem Status.word_toNat :
    st.word.toNat = st.busy.toNat + 2 * st.done.toNat + 4 * st.err.code + 16 * st.sent.code + 256 * st.reason.code := by
  have hlt := st.fields_lt
  rw [Status.word, BitVec.toNat_ofNat, Nat.mod_eq_of_lt (by omega)]

theorem Status.word_busy : st.word.getLsbD 0 = st.busy := by
  have hlt := st.fields_lt
  exact getLsbD_eq_of_toNat (by rw [st.word_toNat]; omega)

theorem Status.word_done : st.word.getLsbD 1 = st.done := by
  have hlt := st.fields_lt
  exact getLsbD_eq_of_toNat (by rw [st.word_toNat]; omega)

theorem Status.word_err : st.word.extractLsb' 2 2 = BitVec.ofNat 2 st.err.code := by
  have hlt := st.fields_lt
  exact extractLsb'_eq_ofNat (by rw [st.word_toNat]; omega)

theorem Status.word_sent : st.word.extractLsb' 4 2 = BitVec.ofNat 2 st.sent.code := by
  have hlt := st.fields_lt
  exact extractLsb'_eq_ofNat (by rw [st.word_toNat]; omega)

theorem Status.word_bits_6_7 : st.word.extractLsb' 6 2 = 0 := by
  have hlt := st.fields_lt
  exact extractLsb'_eq_ofNat (n := 0) (by rw [st.word_toNat]; omega)

theorem Status.word_reason : st.word.extractLsb' 8 4 = BitVec.ofNat 4 st.reason.code := by
  have hlt := st.fields_lt
  exact extractLsb'_eq_ofNat (by rw [st.word_toNat]; omega)

theorem Status.word_bits_12_31 : st.word.extractLsb' 12 20 = 0 := by
  have hlt := st.fields_lt
  exact extractLsb'_eq_ofNat (n := 0) (by rw [st.word_toNat]; omega)

end StatusFields

/-- Settles O13: each field of the STATUS word at its place, with its code. -/
theorem statusFieldsHaveTheirPlaces : Obligations.StatusFieldsHaveTheirPlaces := by
  refine ⟨fun s => ?_, fun s w => State.writeReg_other w (by decide) (by decide) (by decide), rfl⟩
  rw [State.readReg_status]
  refine ⟨s.status.word_busy, s.status.word_done, s.status.word_err.trans ?_, s.status.word_sent.trans ?_,
    s.status.word_bits_6_7, s.status.word_reason.trans ?_, s.status.word_bits_12_31⟩
  · cases s.status.err <;> rfl
  · cases s.status.sent <;> rfl
  · cases s.status.reason <;> rfl

/-! ### CFG and BUFSZ (10_state.md R32, R33) -/

theorem cfgWord_toNat (p : Params) : (cfgWord p).toNat = p.utf8Validate.toNat + 2 * p.strTrailingReject.toNat := by
  have hu := p.utf8Validate.toNat_le
  have ht := p.strTrailingReject.toNat_le
  rw [cfgWord, BitVec.toNat_ofNat, Nat.mod_eq_of_lt (by omega)]

theorem cfgWord_utf8Validate (p : Params) : (cfgWord p).getLsbD 0 = p.utf8Validate := by
  have hu := p.utf8Validate.toNat_le
  exact getLsbD_eq_of_toNat (by rw [cfgWord_toNat]; omega)

theorem cfgWord_strTrailingReject (p : Params) : (cfgWord p).getLsbD 1 = p.strTrailingReject := by
  have hu := p.utf8Validate.toNat_le
  have ht := p.strTrailingReject.toNat_le
  exact getLsbD_eq_of_toNat (by rw [cfgWord_toNat]; omega)

theorem cfgWord_bits_2_31 (p : Params) : (cfgWord p).extractLsb' 2 30 = 0 := by
  have hu := p.utf8Validate.toNat_le
  have ht := p.strTrailingReject.toNat_le
  exact extractLsb'_eq_ofNat (n := 0) (by rw [cfgWord_toNat]; omega)

theorem bufszWord_toNat {p : Params} (h : p.Legal) : (bufszWord p).toNat = p.bufSize := by
  rw [bufszWord, BitVec.toNat_ofNat, Nat.mod_eq_of_lt h.2]

end Sys2Proof.Machine
end

section
/-! PROOFS. 10_state.md R20 to R39, the steps: what reset, a register access and the block's turn do, and what no step
changes (O5 to O9, O11, O12, O14, O18, O20, O27, O48). -/

namespace Sys2Proof.Machine

/-! ### Reset (10_state.md R39) -/

/-- Every register but CFG and BUFSZ reads 0 right after reset. -/
theorem State.readReg_resetWith (p : Params) {off : RegOffset}
    (h : off ∈ ([0x00, 0x04, 0x08, 0x0C, 0x10, 0x14, 0x18] : List RegOffset)) : (State.resetWith p).readReg off = 0 := by
  have hall : ∀ off ∈ ([0x00, 0x04, 0x08, 0x0C, 0x10, 0x14, 0x18] : List RegOffset),
      (State.resetWith p).readReg off = 0 := by
    simp only [List.forall_mem_cons]
    exact ⟨rfl, rfl, rfl, rfl, rfl, rfl, rfl, by simp⟩
  exact hall off h

/-- Settles O5: the reset turn answers `resetBlock`, whose registers are those of `resetWith`. -/
theorem resetGivesTheResetValues : Obligations.ResetGivesTheResetValues := by
  intro s ts h
  exact ⟨_, step_reset h, fun _ hoff => State.readReg_resetWith s.params hoff, rfl, rfl, rfl, Memory.read_nil, rfl, rfl,
    rfl, rfl, rfl, rfl, rfl, rfl⟩

/-- Settles O6: the reset registers, in the reference configuration. -/
theorem registersRightAfterReset : Obligations.RegistersRightAfterReset := by
  refine ⟨fun off h => ?_, rfl, Memory.read_nil, rfl⟩
  by_cases hcfg : off = 0x1C
  · subst hcfg
    rfl
  · refine State.readReg_resetWith Params.reference ?_
    simp only [List.mem_cons, List.not_mem_nil, or_false] at h ⊢
    tauto

/-! ### A register access on the host's turn (10_state.md R22 to R35) -/

section HostTurn

variable {s : State} {ts : List Turn} {ops : List HostOp}

/-- The host's turn performs its next transaction, on the state with turn and transaction taken off. -/
theorem step_hostAccess {op : HostOp} (ht : s.turns = .host :: ts) (hp : s.pending = op :: ops) :
    step s = ((s.setTurns ts).setPending ops).hostAccess op := by
  have hp' : (s.setTurns ts).pending = op :: ops := hp
  rw [step_host ht, hostTurn_cons hp']

theorem step_wr {off : RegOffset} {w : Word} (ht : s.turns = .host :: ts) (hp : s.pending = .wr off w :: ops) :
    step s = .next (((s.setTurns ts).setPending ops).writeReg off w) := step_hostAccess ht hp

theorem step_rd {off : RegOffset} (ht : s.turns = .host :: ts) (hp : s.pending = .rd off :: ops) :
    step s = .next (((s.setTurns ts).setPending ops).note (.reg off (s.readReg off))) := step_hostAccess ht hp

end HostTurn

/-- Settles O7: the three cases of a CTRL write, and the CTRL word field by field. -/
theorem controlWriteStoresAndStarts : Obligations.ControlWriteStoresAndStarts := by
  intro s w ops ts ht hp
  rw [step_wr ht hp, State.writeReg_ctrl]
  refine ⟨fun hb => ?_, fun hb hg => ?_, fun hb hg => ?_, commandWord_eq_append false s.ctrl.op _ _⟩
  · rw [State.writeCtrl_busy w (by exact hb)]
    rfl
  · rw [State.writeCtrl_idle w (by exact hb), if_neg (by rw [cmdGo, hg]; decide)]
    rfl
  · rw [State.writeCtrl_idle w (by exact hb), if_pos (by exact hg)]
    rfl

/-- Settles O8: the fields stored are the word's, and the CTRL word is the command word with GO cleared. -/
theorem controlReadsBackBitsFourToOne : Obligations.ControlReadsBackBitsFourToOne := by
  intro s w hb
  have hctrl : (s.writeCtrl w).ctrl = ⟨cmdOp w, cmdStrict w, cmdPresent w⟩ := by
    rw [State.writeCtrl_idle w hb]
    split <;> rfl
  calc (s.writeReg 0x00 w).readReg 0x00
      = commandWord false (cmdOp w).toNat (cmdStrict w) (cmdPresent w) := by
        rw [State.writeReg_ctrl, State.readReg_ctrl, hctrl, Ctrl.word]
    _ = w &&& 0x1F &&& 0x1E := by rw [← commandWord_and_0x1E (cmdGo w), commandWord_fields]
    _ = w &&& 0x1E := by rw [BitVec.and_assoc]; rfl

/-- Settles O9: the write of an idle block's LEN, and of its OFFSET. -/
theorem lenAndOffsetTakeAnyWord : Obligations.LenAndOffsetTakeAnyWord := by
  intro s w ops ts ht hb
  refine ⟨fun hp => ?_, fun hp => ?_⟩
  · rw [step_wr ht hp, State.writeReg_len w (by exact hb)]
    rfl
  · rw [step_wr ht hp, State.writeReg_offset w (by exact hb)]
    rfl

/-- Settles O11: a write off CTRL, LEN and OFFSET leaves the state, a read off the map notes 0. -/
theorem readOnlyAndUnmappedOffsets : Obligations.ReadOnlyAndUnmappedOffsets := by
  intro s off w ops ts ht
  refine ⟨fun hoff hp => ?_, fun hoff hp => ?_⟩
  · simp only [List.mem_cons, List.not_mem_nil, or_false, not_or] at hoff
    obtain ⟨h0, h4, h8⟩ := hoff
    rw [step_wr ht hp, State.writeReg_other w h0 h4 h8]
    rfl
  · rw [step_rd ht hp, State.readReg_unmapped s hoff]
    rfl

/-- Settles O12: a register read notes the register's word. -/
theorem hostReadsTheMappedRegister : Obligations.HostReadsTheMappedRegister := by
  intro s off ops ts ht hp _
  exact ⟨step_rd ht hp, s.readReg_len, s.readReg_offset, s.readReg_value, s.readReg_slen, s.readReg_soff⟩

/-! ### The command a turn runs (10_state.md R20, R24) -/

/-- The word of the latched command is the CTRL word with GO = 1. -/
theorem State.latchedCommand_eq (s : State) : s.latchedCommand = s.readReg 0x00 ||| 1 :=
  (commandWord_or_one s.ctrl.op s.ctrl.strict s.ctrl.present).symm

/-- Settles O18: the latched command and `w` agree on bits 4:0, which are all the decoder reads. -/
theorem blockRunsTheLatchedCommand : Obligations.BlockRunsTheLatchedCommand := by
  intro s ts ht
  rw [step_block ht]
  refine ⟨fun hb => blockTurn_idle hb, fun hb w hw => ?_⟩
  rw [blockTurn_busy (by exact hb), State.setTurns_latchedCommand, State.latchedCommand_eq, ← hw, decodeWord_and_0x1F]
  rfl

/-- A GO word latched in CTRL is the command it decodes to. -/
theorem decodeWord_latchedCommand_of_go {s : State} {w : Word} (hg : cmdGo w = true)
    (hc : s.ctrl = ⟨cmdOp w, cmdStrict w, cmdPresent w⟩) : decodeWord s.latchedCommand = decodeWord w := by
  rw [State.latchedCommand, hc, ← hg, commandWord_fields, decodeWord_and_0x1F]

/-- Where a command word of 32 bits is laid (log 1, log 6). -/
theorem State.withFetchWord_toNat (s : State) (w : Word) :
    s.withFetchWord 32 w.toNat =
      if cmdGo w then
        ((s.storeCommand (cmdOp w) (cmdStrict w) (cmdPresent w)).startOperation).setTurns (.block :: s.turns)
      else (s.setPending (.wr 0x00 w :: s.pending)).setTurns (.host :: s.turns) := by
  have hw : BitVec.ofNat 32 (w.toNat % 2 ^ 32) = w := by
    rw [Nat.mod_eq_of_lt w.isLt, BitVec.ofNat_toNat, BitVec.setWidth_eq]
  rw [State.withFetchWord, hw]

/-- Settles O20: a GO word is latched and the block is next, any other is the host's next write. -/
theorem fetchedCommandWordRunsNext : Obligations.FetchedCommandWordRunsNext := by
  intro s w
  rw [State.withFetchWord_toNat]
  refine ⟨fun hg => ?_, fun hg => ?_⟩
  · rw [if_pos (by exact hg), step_block rfl, blockTurn_busy rfl, decodeWord_latchedCommand_of_go hg rfl]
    rfl
  · have hg : cmdGo w = false := hg
    rw [if_neg (by simp [hg]), step_wr rfl rfl, exec_configuration hg]
    rfl

/-- Settles O27: SETCFG is the store of its fields, and OP's number fits its 2-bit field. -/
theorem setcfgStoresTheFields : Obligations.SetcfgStoresTheFields := by
  intro op strict present s
  refine ⟨fun hb => ?_, fun hb => execSetcfg_busy _ _ _ hb⟩
  calc exec (.setcfg op.toNat strict present) s
      = .next (s.storeCommand (BitVec.ofNat 2 op.toNat) strict present) := execSetcfg_idle _ _ _ hb
    _ = .next { s with ctrl := ⟨op, strict, present⟩ } := by rw [BitVec.ofNat_toNat, BitVec.setWidth_eq]; rfl

/-! ### The parameters never change (10_state.md R32, R33) -/

@[simp] theorem State.writeReg_params (s : State) (off : RegOffset) (w : Word) : (s.writeReg off w).params = s.params := by
  rcases s.writeReg_cases off w with e | ⟨-, -, -, e⟩ | ⟨-, -, -, e⟩ | ⟨-, -, e⟩ | ⟨-, -, e⟩ <;> rw [e] <;> rfl

@[simp] theorem State.hostWriteBuf_params (s : State) (i : Nat) (b : Byte) : (s.hostWriteBuf i b).params = s.params := by
  rcases s.hostWriteBuf_cases i b with ⟨-, e⟩ | ⟨-, -, e⟩ <;> rw [e]

theorem step_keeps_params {s t : State} (h : step s = .next t) : t.params = s.params := by
  rcases step_turn s with ⟨ts, -, e⟩ | ⟨ts, -, e⟩ | ⟨ts, -, e⟩ <;> rw [e] at h
  · cases h
    rfl
  · rcases blockTurn_next h with ⟨-, rfl⟩ | ⟨-, -, c, rfl⟩ <;> rfl
  · rcases hostTurn_next h with ⟨-, rfl⟩ | ⟨op, ops, -, ⟨off, w, -, rfl⟩ | ⟨i, b, -, rfl⟩ | ⟨r, rfl⟩ | ⟨r, rfl⟩⟩ <;> simp

/-- Settles O14: CFG and BUFSZ are words of the parameters, which neither a write nor a step changes. -/
theorem parameterRegistersAreConstant : Obligations.ParameterRegistersAreConstant := by
  intro s
  refine ⟨cfgWord_utf8Validate _, cfgWord_strTrailingReject _, cfgWord_bits_2_31 _, bufszWord_toNat, fun w =>
    ⟨State.writeReg_other w (by decide) (by decide) (by decide),
      State.writeReg_other w (by decide) (by decide) (by decide)⟩, fun t h => ?_⟩
  have hp := step_keeps_params h
  exact ⟨hp, congrArg cfgWord hp, congrArg bufszWord hp⟩

/-! ### STATUS and the results (10_state.md R28) -/

/-- STATUS and the result registers are the same in two states. -/
def State.SameReport (s t : State) : Prop :=
  t.status = s.status ∧ t.value = s.value ∧ t.slen = s.slen ∧ t.soff = s.soff

/-- A register write leaves STATUS and the results, or it is a GO to an idle block, which leaves the results. -/
theorem State.writeReg_report (s : State) (off : RegOffset) (w : Word) :
    s.SameReport (s.writeReg off w) ∨
    (s.status.busy = false ∧ off = 0x00 ∧ cmdGo w = true ∧
      s.writeReg off w = (s.storeCommand (cmdOp w) (cmdStrict w) (cmdPresent w)).startOperation) := by
  rcases s.writeReg_cases off w with e | hgo | ⟨-, -, -, e⟩ | ⟨-, -, e⟩ | ⟨-, -, e⟩
  case inr.inl => exact .inr hgo
  all_goals exact .inl (by rw [e]; exact ⟨rfl, rfl, rfl, rfl⟩)

theorem State.hostWriteBuf_report (s : State) (i : Nat) (b : Byte) : s.SameReport (s.hostWriteBuf i b) := by
  rcases s.hostWriteBuf_cases i b with ⟨-, e⟩ | ⟨-, -, e⟩ <;> rw [e] <;> exact ⟨rfl, rfl, rfl, rfl⟩

/-- The host's turn leaves STATUS and the results, or performs a GO to an idle block. -/
theorem hostTurn_report {s t : State} (h : hostTurn s = .next t) :
    s.SameReport t ∨
    ∃ w ops, s.pending = .wr 0x00 w :: ops ∧ s.status.busy = false ∧ cmdGo w = true ∧
      t = ((s.setPending ops).storeCommand (cmdOp w) (cmdStrict w) (cmdPresent w)).startOperation := by
  rcases hostTurn_next h with ⟨-, rfl⟩ | ⟨op, ops, hp, ⟨off, w, rfl, rfl⟩ | ⟨i, b, -, rfl⟩ | ⟨r, rfl⟩ | ⟨r, rfl⟩⟩
  · exact .inl ⟨rfl, rfl, rfl, rfl⟩
  · rcases (s.setPending ops).writeReg_report off w with h | ⟨hb, rfl, hg, e⟩
    · exact .inl h
    · exact .inr ⟨w, ops, hp, hb, hg, e⟩
  · exact .inl ((s.setPending ops).hostWriteBuf_report i b)
  · exact .inl ⟨rfl, rfl, rfl, rfl⟩
  · exact .inl ⟨rfl, rfl, rfl, rfl⟩

/-- Everything a step can do to STATUS and the results: leave them, reset them, accept a GO, or complete. -/
theorem step_report {s t : State} (h : step s = .next t) :
    s.SameReport t ∨
    (∃ ts, s.turns = .reset :: ts ∧ t = (s.setTurns ts).resetBlock) ∨
    (∃ ts w ops, s.pending = .wr 0x00 w :: ops ∧ s.status.busy = false ∧ cmdGo w = true ∧
      t = (((s.setTurns ts).setPending ops).storeCommand (cmdOp w) (cmdStrict w) (cmdPresent w)).startOperation) ∨
    (∃ ts c, s.status.busy = true ∧ (s.turns = [] ∨ s.turns = .block :: ts) ∧ t = (s.setTurns ts).complete c) := by
  rcases step_turn s with ⟨ts, ht, e⟩ | ⟨ts, ht, e⟩ | ⟨ts, -, e⟩ <;> rw [e] at h
  · cases h
    exact .inr (.inl ⟨ts, ht, rfl⟩)
  · rcases blockTurn_next h with ⟨-, rfl⟩ | ⟨hb, -, c, rfl⟩
    · exact .inl ⟨rfl, rfl, rfl, rfl⟩
    · exact .inr (.inr (.inr ⟨ts, c, hb, ht.symm.imp_left And.left, rfl⟩))
  · rcases hostTurn_report h with h | ⟨w, ops, hp, hb, hg, e⟩
    · exact .inl h
    · exact .inr (.inr (.inl ⟨ts, w, ops, hp, hb, hg, e⟩))

/-- Settles O48: BUSY and DONE stay apart since each of the three transitions sets at most one of them. -/
theorem statusHasThreeTransitions : Obligations.StatusHasThreeTransitions := by
  intro s t h
  rcases step_report h with ⟨hs, hv, hl, ho⟩ | ⟨ts, ht, rfl⟩ | ⟨ts, w, ops, hp, hb, hg, rfl⟩ | ⟨ts, c, hb, ht, rfl⟩
  · exact ⟨.inl ⟨hs, hv, hl, ho⟩, by rw [hs]; exact id⟩
  · exact ⟨.inr (.inl ⟨ts, ht, rfl, rfl, rfl, rfl⟩), by simp [Status.reset]⟩
  · exact ⟨.inr (.inr (.inl ⟨hb, ⟨w, ops, hp, hg, rfl⟩, rfl, rfl, rfl, rfl⟩)), by simp⟩
  · exact ⟨.inr (.inr (.inr ⟨hb, ht.imp_right fun h => ⟨ts, h⟩, rfl, rfl⟩)), by simp⟩

end Sys2Proof.Machine
end

section
/-! PROOFS. 10_state.md R26, 20_memory.md R54: what SDEC reads (O43). -/

namespace Sys2Proof.Machine

section SdecReads

variable {s t : State} (hlen : t.len = s.len) (hparams : t.params = s.params)
  (hbuf : ∀ j, j < s.len.toNat → (s.params.utf8Validate = false → j < 2) → t.buf.read j = s.buf.read j)
include hlen hparams hbuf

/-- The checks on the text read nothing but the string bytes below LEN, and those only with UTF8_VALIDATE = 1. -/
theorem sdecText_congr (n : BitVec 16) : sdecText t n = sdecText s n := by
  unfold sdecText
  rw [hlen, hparams]
  by_cases hn : s.len.toNat < 2 + n.toNat
  · rw [if_pos hn, if_pos hn]
  · cases hu : s.params.utf8Validate with
    | false => rfl
    | true =>
      have hrun : t.blockReadRun 2 n.toNat = s.blockReadRun 2 n.toNat :=
        State.blockReadRun_congr fun j _ hj => hbuf j (by omega) (by simp [hu])
      rw [hrun]

/-- The two length bytes are read only when both are below LEN (41_string_decode.md R132, R133). -/
theorem sdecResult_congr (present : Bool) : sdecResult t present = sdecResult s present := by
  unfold sdecResult
  rw [hlen]
  by_cases hl : s.len.toNat < 2
  · rw [if_pos hl, if_pos hl]
  · have hread : ∀ j, j < 2 → t.blockRead j = s.blockRead j := fun j hj => by
      rw [State.blockRead, State.blockRead, hbuf j (by omega) fun _ => hj]
    simp only [hread 0 (by decide), hread 1 (by decide), sdecText_congr hlen hparams hbuf]

end SdecReads

/-- Settles O43: the pre-check and the result are the same, and the completion write touches neither OFFSET nor BUF. -/
theorem sdecReadsNeitherOffsetNorBeyondLen : Obligations.SdecReadsNeitherOffsetNorBeyondLen := by
  intro strict present s off m hbuf
  have hpre : State.lenOutOfRange { s with offset := off, buf := m } present = s.lenOutOfRange present := rfl
  have hres : sdecResult { s with offset := off, buf := m } present = sdecResult s present :=
    sdecResult_congr (s := s) (t := { s with offset := off, buf := m }) rfl rfl hbuf present
  show execSdec strict present _ = mapNext _ (execSdec strict present s)
  rcases execSdec_cases strict present s with ⟨hl, e⟩ | ⟨hl, ⟨f, hf, e⟩ | ⟨r, hr, e⟩⟩ <;> rw [e]
  · rw [execSdec, hpre, hl, if_pos rfl]
    rfl
  · rw [execSdec, hpre, hl, hres, hf]
    rfl
  · rw [execSdec_of_result (hpre.trans hl) (hres.trans hr)]
    rfl

end Sys2Proof.Machine
end

section
/-! PROOFS. 20_memory.md R52 to R55: the host's accesses to BUF (O15, O16). -/

namespace Sys2Proof.Machine

/-! ### Each access to BUF -/

/-- A host byte write is dropped while BUSY = 1 and outside BUF (20_memory.md R52). -/
theorem State.hostWriteBuf_dropped {s : State} {i : Nat} (b : Byte)
    (h : s.status.busy = true ∨ s.params.bufSize ≤ i) : s.hostWriteBuf i b = s := by
  rcases s.hostWriteBuf_cases i b with ⟨-, e⟩ | ⟨hb, hi, -⟩
  · exact e
  · rcases h with h | h
    · simp [hb] at h
    · omega

theorem State.hostWriteBuf_accepted {s : State} {i : Nat} (b : Byte) (hb : s.status.busy = false)
    (hi : i < s.params.bufSize) : s.hostWriteBuf i b = { s with buf := s.buf.write i b } := by
  rcases s.hostWriteBuf_cases i b with ⟨h | h, -⟩ | ⟨-, -, e⟩
  · simp [hb] at h
  · omega
  · exact e

theorem State.hostReadBuf_written {s : State} {i : Nat} {b : Byte} (hi : i < s.params.bufSize)
    (h : s.buf.read i = some b) : s.hostReadBuf i = .ok b := by
  rw [State.hostReadBuf, if_pos hi, h]

theorem State.hostReadBuf_outside {s : State} {i : Nat} (hi : s.params.bufSize ≤ i) : s.hostReadBuf i = .ok 0 :=
  if_neg (by omega)

/-! ### A BUF access on the host's turn -/

section HostTurn

variable {s : State} {ts : List Turn} {ops : List HostOp} {i : Nat} {b : Byte}

theorem step_wb (ht : s.turns = .host :: ts) (hp : s.pending = .wb i b :: ops) :
    step s = .next (((s.setTurns ts).setPending ops).hostWriteBuf i b) := step_hostAccess ht hp

/-- A byte read that gives a byte notes it and does nothing else. -/
theorem step_rb_of_read (ht : s.turns = .host :: ts) (hp : s.pending = .rb i :: ops) (h : s.hostReadBuf i = .ok b) :
    step s = .next (((s.setTurns ts).setPending ops).note (.buf i b)) := by
  have h' : ((s.setTurns ts).setPending ops).hostReadBuf i = .ok b := h
  rw [step_hostAccess ht hp, State.hostAccess, State.hostNoteBuf, h']

end HostTurn

/-- Settles O15: the accepted write is `Memory.write`, which changes its own index alone. -/
theorem hostByteWriteChangesOneByte : Obligations.HostByteWriteChangesOneByte := by
  intro s i b ops ts ht hp
  rw [step_wb ht hp]
  refine ⟨fun hdrop => ?_, fun hb hi => ⟨s.buf.write i b, ?_, s.buf.read_write_same i b, fun _ hj =>
    s.buf.read_write_other b hj⟩⟩
  · rw [State.hostWriteBuf_dropped b (by exact hdrop)]
    rfl
  · rw [State.hostWriteBuf_accepted b (by exact hb) (by exact hi)]
    rfl

/-- Settles O16: a written byte is what the read gives, and 0 outside BUF. -/
theorem hostByteReadGivesTheByte : Obligations.HostByteReadGivesTheByte := by
  intro s i ops ts ht hp
  exact ⟨fun _ hi hb => step_rb_of_read ht hp (State.hostReadBuf_written hi hb),
    fun hi => step_rb_of_read ht hp (State.hostReadBuf_outside hi)⟩

end Sys2Proof.Machine
end

section
/-! PROOFS. 20_memory.md R58, R61: what is stable while an operation goes on (O49). -/

namespace Sys2Proof.Machine

/-- While BUSY = 1 the host's turn does nothing to the block: its writes are dropped (70_reset_and_hazards.md R205), and
its reads are noted. -/
theorem hostTurn_busy_keeps_block {s t : State} (hb : s.status.busy = true) (h : hostTurn s = .next t) :
    t = { s with pending := t.pending, turns := t.turns, noted := t.noted } := by
  rcases hostTurn_next h with ⟨-, rfl⟩ | ⟨op, ops, -, ⟨off, w, -, rfl⟩ | ⟨i, b, -, rfl⟩ | ⟨r, rfl⟩ | ⟨r, rfl⟩⟩
  · rfl
  · rw [State.writeReg_busy off w (by exact hb)]
    rfl
  · rw [State.hostWriteBuf_dropped b (.inl (by exact hb))]
    rfl
  · rfl
  · rfl

/-- The block's turn of a busy block ends its operation (60_exceptions.md R183, R184). -/
theorem blockTurn_ends_operation {s t : State} (hb : s.status.busy = true) (h : blockTurn s = .next t) :
    t.status.busy = false := by
  rcases blockTurn_next h with ⟨hi, -⟩ | ⟨-, -, c, rfl⟩
  · simp [hb] at hi
  · rfl

/-- Settles O49: reset and the block's turn end the operation, so the step was a turn of the host. -/
theorem inputsAreStableWhileBusy : Obligations.InputsAreStableWhileBusy := by
  intro s t h hs ht
  rcases step_turn s with ⟨ts, -, e⟩ | ⟨ts, -, e⟩ | ⟨ts, -, e⟩ <;> rw [e] at h
  · cases h
    simp [Status.reset] at ht
  · have hidle := blockTurn_ends_operation (s := s.setTurns ts) hs h
    simp [hidle] at ht
  · exact hostTurn_busy_keeps_block (s := s.setTurns ts) hs h

end Sys2Proof.Machine
end

section
/-! PROOFS. 20_memory.md R54, 40_varint_decode.md R108: what VDEC reads (O35). -/

namespace Sys2Proof.Machine

theorem State.blockRead_congr {s t : State} {i : Nat} (h : t.buf.read i = s.buf.read i) :
    t.blockRead i = s.blockRead i := by
  rw [State.blockRead, State.blockRead, h]

/-- The first byte and the loop's three are all VDEC reads, below LEN alone. -/
theorem vdecResult_congr {s t : State} (hlen : t.len = s.len) (hoff : t.offset = s.offset)
    (hbuf : ∀ j, s.offset.toNat ≤ j → j < s.offset.toNat + 4 → j < s.len.toNat → t.buf.read j = s.buf.read j)
    (present : Bool) : vdecResult t present = vdecResult s present := by
  unfold vdecResult
  rw [hlen, hoff]
  by_cases hend : s.len ≤ s.offset
  · rw [if_pos hend, if_pos hend]
  · have hi : s.offset.toNat < s.len.toNat := by rw [BitVec.le_def] at hend; omega
    have hread : t.blockRead s.offset.toNat = s.blockRead s.offset.toNat :=
      State.blockRead_congr (hbuf _ le_rfl (by omega) hi)
    have hrest : ∀ b, readDigits t (Config.maxVarintBytes - 1) ((Walk.start s.offset).take b) =
        readDigits s (Config.maxVarintBytes - 1) ((Walk.start s.offset).take b) := fun b =>
      readDigits_congr hlen _ _ fun j hlo hhi => by
        rw [Walk.take_i_toNat (w := Walk.start s.offset) hi] at hlo hhi
        simp only [Walk.start, Config.maxVarintBytes] at hlo hhi
        exact hbuf j (by omega) (by omega)
    simp only [hread, hrest]

/-- Settles O35: the pre-check and the result are the same, and the completion write does not touch BUF. -/
theorem vdecReadsAtMostFourBytes : Obligations.VdecReadsAtMostFourBytes := by
  intro strict present s m hbuf
  have hpre : State.lenOutOfRange { s with buf := m } present = s.lenOutOfRange present := rfl
  have hres : vdecResult { s with buf := m } present = vdecResult s present :=
    vdecResult_congr (s := s) (t := { s with buf := m }) rfl rfl hbuf present
  show execVdec strict present _ = mapNext _ (execVdec strict present s)
  rw [execVdec, execVdec, hpre, hres]
  cases s.lenOutOfRange present with
  | true => rfl
  | false => cases vdecResult s present <;> rfl

end Sys2Proof.Machine
end

section
/-! PROOFS. 30_encoding.md R70 to R73, the command word: decoder and encoder are inverse to each other on bits 4:0, and
each word lies in one row of the opcode table (O1 to O4). -/

namespace Sys2Proof

/-! ### The decoder row by row (30_encoding.md R72, R73) -/

/-- Everything the decoder can answer, with the values of GO and OP that lead there. -/
theorem decodeWord_cases (w : Word) :
    (cmdGo w = false ∧ decodeWord w = .setcfg (cmdOp w).toNat (cmdStrict w) (cmdPresent w)) ∨
    (cmdGo w = true ∧ (cmdOp w).toNat = 0 ∧ decodeWord w = .vdec (cmdStrict w) (cmdPresent w)) ∨
    (cmdGo w = true ∧ (cmdOp w).toNat = 1 ∧ decodeWord w = .sdec (cmdStrict w) (cmdPresent w)) ∨
    (cmdGo w = true ∧ (cmdOp w).toNat = 2 ∧ decodeWord w = .rsv2 (cmdStrict w) (cmdPresent w)) ∨
    (cmdGo w = true ∧ (cmdOp w).toNat = 3 ∧ decodeWord w = .rsv3 (cmdStrict w) (cmdPresent w)) := by
  have hlt := (cmdOp w).isLt
  unfold decodeWord
  cases cmdGo w with
  | false => exact .inl ⟨rfl, rfl⟩
  | true =>
    generalize (cmdOp w).toNat = op at hlt
    interval_cases op <;> simp

theorem decodeWord_wellFormed (w : Word) : (decodeWord w).WellFormed := by
  rcases decodeWord_cases w with ⟨-, e⟩ | ⟨-, -, e⟩ | ⟨-, -, e⟩ | ⟨-, -, e⟩ | ⟨-, -, e⟩ <;> rw [e]
  · exact decide_eq_true (cmdOp w).isLt
  all_goals rfl

/-- Encoding what a word decodes to clears the ignored bits 31:5 and nothing else. -/
theorem encode_decodeWord (w : Word) : encode (decodeWord w) = w &&& 0x1F := by
  rw [← commandWord_fields w]
  rcases decodeWord_cases w with ⟨hg, e⟩ | ⟨hg, ho, e⟩ | ⟨hg, ho, e⟩ | ⟨hg, ho, e⟩ | ⟨hg, ho, e⟩
  · rw [e, hg]; rfl
  all_goals rw [e, hg, ho]; rfl

/-- No well-formed command is lost in its word: SETCFG's OP number fits the field (log 12). -/
theorem decodeWord_encode {i : Instr} (h : i.WellFormed) : decodeWord (encode i) = i := by
  cases i with
  | setcfg op strict present =>
    have hop : op < 4 := of_decide_eq_true h
    rw [encode, decodeWord, cmdGo_commandWord _ _ _ hop, cmdOp_commandWord _ _ _ hop, cmdStrict_commandWord _ _ _ hop,
      cmdPresent_commandWord _ _ _ hop, if_neg (by decide), BitVec.toNat_ofNat, Nat.mod_eq_of_lt hop]
  | vdec strict present => revert strict present; decide
  | sdec strict present => revert strict present; decide
  | rsv2 strict present => revert strict present; decide
  | rsv3 strict present => revert strict present; decide

/-! ### The two entry points on a 32-bit word -/

theorem decode_toNat (w : Word) : decode w.toNat = .ok (decodeWord w) := by
  rw [decode, if_pos w.isLt, BitVec.ofNat_toNat, BitVec.setWidth_eq]

theorem decodeTableWord_toNat (w : Word) : decodeTableWord 32 w.toNat = some (decodeWord w) := by
  rw [decodeTableWord, Nat.mod_eq_of_lt w.isLt, decode_toNat]
  rfl

/-- Settles O2: the decoder inverts the encoder on commands, and the encoder the decoder on bits 4:0. -/
theorem decodeAndEncodeAgree : Obligations.DecodeAndEncodeAgree := by
  refine ⟨fun i hi => ?_, fun w => ⟨encode_decodeWord w, decodeWord_wellFormed w⟩⟩
  rw [decode_toNat, decodeTableWord_toNat, decodeWord_encode hi]
  exact ⟨rfl, rfl⟩

/-! ### The opcode table (30_encoding.md R72) -/

/-- Every well-formed command encodes into its own row and no other. -/
theorem encode_covered_iff {i : Instr} (h : i.WellFormed) :
    ∀ r ∈ opcodeRows, r.covers (encode i) = (r.mnemonic == i.mnemonic) := by
  cases i with
  | vdec strict present => exact Laws.EncodesInItsRow.vdec strict present h
  | sdec strict present => exact Laws.EncodesInItsRow.sdec strict present h
  | rsv2 strict present => exact Laws.EncodesInItsRow.rsv2 strict present h
  | rsv3 strict present => exact Laws.EncodesInItsRow.rsv3 strict present h
  | setcfg op strict present => exact Laws.EncodesInItsRow.setcfg op strict present h

/-- No row looks at a bit above 4 (30_encoding.md R73). -/
theorem OpcodeRow.covers_and_0x1F {r : OpcodeRow} (hr : r ∈ opcodeRows) (w : Word) :
    r.covers (w &&& 0x1F) = r.covers w := by
  have hmask : ∀ r ∈ opcodeRows, 0x1F &&& r.mask = r.mask := by decide
  rw [covers, covers, BitVec.and_assoc, hmask r hr]

/-- A row covers exactly the words that decode to its command. -/
theorem OpcodeRow.covers_iff {r : OpcodeRow} (hr : r ∈ opcodeRows) (w : Word) :
    r.covers w = true ↔ r.mnemonic = (decodeWord w).mnemonic := by
  rw [← covers_and_0x1F hr, ← encode_decodeWord, encode_covered_iff (decodeWord_wellFormed w) r hr, beq_iff_eq]

theorem exists_row_of_mnemonic (i : Instr) : ∃ r ∈ opcodeRows, r.mnemonic = i.mnemonic := by
  cases i <;> simp [opcodeRows, Instr.mnemonic]

theorem opcodeRows_mnemonic_injective :
    ∀ r ∈ opcodeRows, ∀ r' ∈ opcodeRows, r'.mnemonic = r.mnemonic → r' = r := by decide

/-- Settles O3: a row covers the word when it has the mnemonic of its decoding, and mnemonics name rows uniquely. -/
theorem opcodeRowsPartitionTheWords : Obligations.OpcodeRowsPartitionTheWords := by
  intro w
  obtain ⟨r, hr, hm⟩ := exists_row_of_mnemonic (decodeWord w)
  refine ⟨r, hr, (OpcodeRow.covers_iff hr w).mpr hm, hm.symm, fun r' hr' hc => ?_⟩
  exact opcodeRows_mnemonic_injective r hr r' hr' (((OpcodeRow.covers_iff hr' w).mp hc).trans hm.symm)

/-- Settles O4: a word decodes as its bits 4:0 do. -/
theorem reservedCommandBitsAreIgnored : Obligations.ReservedCommandBitsAreIgnored := by
  intro w w' h
  rw [← decodeWord_and_0x1F w, h, decodeWord_and_0x1F]

/-- Settles O1: eight closed words, evaluated. -/
theorem specWordsDecodeToTheirCommands : Obligations.SpecWordsDecodeToTheirCommands := by
  unfold Obligations.SpecWordsDecodeToTheirCommands
  decide

end Sys2Proof
end

section
/-! PROOFS. 30_encoding.md R80, well-formed UTF-8: the one-pass check, the table's split and the bytes of texts are the
same (O44, O60). -/

namespace Sys2Proof.Machine

/-! ### Splitting into rows of the table -/

theorem SplitsIntoRows.nil : SplitsIntoRows [] := ⟨[], rfl, by simp⟩

theorem SplitsIntoRows.append {row : List ByteRange} {p t : List Byte} (hr : row ∈ utf8Rows)
    (hp : List.Forall₂ (fun (r : ByteRange) (b : Byte) => r.lo ≤ b ∧ b ≤ r.hi) row p) (ht : SplitsIntoRows t) :
    SplitsIntoRows (p ++ t) := by
  obtain ⟨parts, rfl, hparts⟩ := ht
  exact ⟨p :: parts, rfl, List.forall_mem_cons.mpr ⟨⟨row, hr, hp⟩, hparts⟩⟩

/-- The first sequence of a split is the one the check takes, since no two rows share a first byte. -/
theorem splitsIntoRows_cons_iff {b : Byte} {bs : List Byte} :
    SplitsIntoRows (b :: bs) ↔ ∃ rest, takeCodePoint (b :: bs) = some rest ∧ SplitsIntoRows rest := by
  constructor
  · rintro ⟨parts, e, hparts⟩
    cases parts with
    | nil => cases e
    | cons p ps =>
      obtain ⟨⟨row, hr, hp⟩, hps⟩ := List.forall_mem_cons.mp hparts
      exact ⟨ps.flatten, by rw [e]; exact takeCodePoint_of_row hr hp, ps, rfl, hps⟩
  · rintro ⟨rest, h, hrest⟩
    obtain ⟨row, hr, p, hp, e⟩ := takeCodePoint_some h
    rw [e]
    exact .append hr hp hrest

/-! ### The one-pass check -/

/-- A code point takes at least one byte. -/
theorem takeCodePoint_length_lt {t rest : List Byte} (h : takeCodePoint t = some rest) : rest.length < t.length := by
  obtain ⟨row, hr, p, hp, rfl⟩ := takeCodePoint_some h
  have hpos := List.length_pos_iff.mpr (utf8Rows_ne_nil row hr)
  rw [List.length_append, ← hp.length_eq]
  omega

/-- With as many sequences allowed as there are bytes, the check decides the split. -/
theorem utf8Within_iff {fuel : Nat} {t : List Byte} (h : t.length ≤ fuel) :
    utf8Within fuel t = true ↔ SplitsIntoRows t := by
  induction fuel generalizing t with
  | zero =>
    rw [List.length_eq_zero_iff.mp (Nat.le_zero.mp h)]
    exact iff_of_true rfl .nil
  | succ fuel ih =>
    cases t with
    | nil => exact iff_of_true rfl .nil
    | cons b bs =>
      rw [splitsIntoRows_cons_iff, utf8Within]
      cases htake : takeCodePoint (b :: bs) with
      | none => simp
      | some rest =>
        have hlt := takeCodePoint_length_lt htake
        simpa using ih (by omega)

/-- Settles O44: the check allows as many sequences as there are bytes. -/
theorem utf8CheckIsTheTablesSplit : Obligations.Utf8CheckIsTheTablesSplit :=
  fun _ => utf8Within_iff le_rfl

/-! ### The bytes of a text (log 14) -/

theorem utf8OfText_cons_eq_some {c : Nat} {cs : List Nat} {t : List Byte} :
    utf8OfText (c :: cs) = some t ↔ ∃ p q, utf8OfCodePoint c = some p ∧ utf8OfText cs = some q ∧ t = p ++ q := by
  rw [utf8OfText]
  cases utf8OfCodePoint c <;> cases utf8OfText cs <;> simp [eq_comm]

theorem splitsIntoRows_of_text {cs : List Nat} {t : List Byte} (h : utf8OfText cs = some t) : SplitsIntoRows t := by
  induction cs generalizing t with
  | nil => cases h; exact .nil
  | cons c cs ih =>
    obtain ⟨p, q, hp, hq, rfl⟩ := utf8OfText_cons_eq_some.mp h
    obtain ⟨row, hr, hfit⟩ := utf8OfCodePoint_fits hp
    exact .append hr hfit (ih hq)

theorem exists_text_of_splitsIntoRows {t : List Byte} (h : SplitsIntoRows t) : ∃ cs, utf8OfText cs = some t := by
  obtain ⟨parts, rfl, hparts⟩ := h
  induction parts with
  | nil => exact ⟨[], rfl⟩
  | cons p ps ih =>
    obtain ⟨⟨row, hr, hfit⟩, hps⟩ := List.forall_mem_cons.mp hparts
    obtain ⟨c, hc⟩ := utf8OfCodePoint_of_fits hr hfit
    obtain ⟨cs, hcs⟩ := ih hps
    exact ⟨c :: cs, utf8OfText_cons_eq_some.mpr ⟨p, ps.flatten, hc, hcs, rfl⟩⟩

/-- Settles O60: the sequences of the table are the bytes of the code points, one by one. -/
theorem utf8CheckAcceptsExactlyTheBytesOfTexts : Obligations.Utf8CheckAcceptsExactlyTheBytesOfTexts :=
  fun t => (utf8CheckIsTheTablesSplit t).trans
    ⟨exists_text_of_splitsIntoRows, fun ⟨_, h⟩ => splitsIntoRows_of_text h⟩

end Sys2Proof.Machine
end

section
/-! PROOFS. 30_encoding.md R73, R82: the host's configuration write, and its poll (O19, O21). -/

namespace Sys2Proof.Machine

/-- Settles O19: SETCFG is the CTRL write of its word. -/
theorem configurationWriteRunsSetcfg : Obligations.ConfigurationWriteRunsSetcfg := by
  intro s w ops ts ht hp hgo
  rw [step_wr ht hp, State.writeReg_ctrl, exec_configuration hgo]
  rfl

theorem State.hostPoll_of_not_done {s : State} (h : s.status.done = false) :
    s.hostPoll = (s.note (.reg 0x0C (s.readReg 0x0C))).setPending (.poll :: s.pending) :=
  if_neg (by simp [h])

theorem State.hostPoll_of_done {s : State} (h : s.status.done = true) :
    s.hostPoll = s.note (.reg 0x0C (s.readReg 0x0C)) :=
  if_pos h

theorem step_poll {s : State} {ts : List Turn} {ops : List HostOp} (ht : s.turns = .host :: ts)
    (hp : s.pending = .poll :: ops) : step s = .next ((s.setTurns ts).setPending ops).hostPoll :=
  step_hostAccess ht hp

/-- Settles O21: bit 1 of the word noted is DONE, which the poll waits for. -/
theorem pollGoesOnUntilDone : Obligations.PollGoesOnUntilDone := by
  intro s ops ts ht hp
  rw [step_poll ht hp, State.readReg_status, Status.word_done]
  refine ⟨fun hd => ?_, fun hd => ?_⟩
  · rw [State.hostPoll_of_not_done (by exact hd), State.setPending_pending, ← hp]
    rfl
  · rw [State.hostPoll_of_done (by exact hd)]
    rfl

end Sys2Proof.Machine
end

section
/-! PROOFS. 40_varint_decode.md R101 to R107, 10_state.md R29: how VDEC ends on each form of buffer, and what it then
reports (O28 to O33). -/

namespace Sys2Proof.Machine

/-! ### The report of each end (60_exceptions.md R184) -/

theorem State.complete_vdecCompletion_error (s : State) (strict : Bool) (r : Reason) :
    s.complete (vdecCompletion strict (.error r)) = s.vdecError strict r.kind r := by
  cases strict <;> rfl

theorem exec_vdec_of_error {strict present : Bool} {s : State} {r : Reason} (hl : s.lenOutOfRange present = false)
    (h : vdecResult s present = .ok (.error r)) :
    exec (.vdec strict present) s = .next (s.vdecError strict r.kind r) :=
  (execVdec_of_result hl h).trans (by rw [State.complete_vdecCompletion_error])

theorem exec_vdec_of_value {strict present : Bool} {s : State} {v : Word} (hl : s.lenOutOfRange present = false)
    (h : vdecResult s present = .ok (.ok v)) :
    exec (.vdec strict present) s = .next (s.reported .none .none .none v 0 0) :=
  execVdec_of_result hl h

/-- Every report a completed VDEC leaves: the failed pre-check's, a success's, or that of a reason of its own. -/
theorem exec_vdec_next_cases {strict present : Bool} {s t : State} (h : exec (.vdec strict present) s = .next t) :
    t = s.reported .invalidArgument .none .lenRange 0 0 0 ∨
    (∃ v : Word, v.toNat ≤ Config.maxVarintValue ∧ t = s.reported .none .none .none v 0 0) ∨
    ∃ r : Reason, r.ofVdec = true ∧ t = s.vdecError strict r.kind r := by
  change execVdec strict present s = .next t at h
  rcases execVdec_cases strict present s with ⟨-, e⟩ | ⟨-, ⟨f, -, e⟩ | ⟨r, hr, e⟩⟩ <;> rw [e] at h <;> cases h
  · exact .inl rfl
  · have hlegal := vdecResult_legal hr
    cases r with
    | ok v => exact .inr (.inl ⟨v, hlegal, rfl⟩)
    | error r => exact .inr (.inr ⟨r, hlegal, s.complete_vdecCompletion_error strict r⟩)

/-- Settles O33: only a success reports no reason, and only a lenient error of VDEC's own the value 0xFFFFFFFF. -/
theorem vdecValueIsBelowTwoToThe28 : Obligations.VdecValueIsBelowTwoToThe28 := by
  intro strict present s t h
  rcases exec_vdec_next_cases h with rfl | ⟨v, hv, rfl⟩ | ⟨r, hr, rfl⟩
  · exact ⟨nofun, fun _ _ hne => absurd rfl hne, nofun⟩
  · refine ⟨fun _ => ⟨hv, rfl, rfl, rfl, rfl⟩, fun hne => absurd rfl hne, ?_⟩
    rintro rfl
    exact absurd hv (by decide)
  · have hne : r ≠ .none := by rintro rfl; cases hr
    cases strict with
    | true => exact ⟨fun e => absurd e hne, nofun, nofun⟩
    | false => exact ⟨fun e => absurd e hne, fun _ _ _ => ⟨rfl, rfl, rfl⟩, fun _ => ⟨rfl, hne⟩⟩

/-! ### No byte to read (40_varint_decode.md R101, R104) -/

theorem vdecResult_absent {s : State} {present : Bool} (h : present = false ∨ s.len = 0) :
    vdecResult s present = .ok (.error .absentBuffer) := if_pos h

theorem vdecResult_outside {s : State} (hz : s.len ≠ 0) (ho : s.len.toNat ≤ s.offset.toNat) :
    vdecResult s true = .ok (.error .truncated) := by
  rw [vdecResult, if_neg (by simpa using hz), if_pos (by rw [BitVec.le_def]; exact ho)]

/-- Neither an absent nor an empty buffer is longer than BUF (60_exceptions.md R183). -/
theorem State.lenOutOfRange_of_absent {s : State} {present : Bool} (h : present = false ∨ s.len = 0) :
    s.lenOutOfRange present = false := by
  rcases h with rfl | h
  · rfl
  · exact State.lenOutOfRange_eq_false (by simp [h]) present

/-- Settles O28: VDEC passes the pre-check and ends before its first read. -/
theorem vdecAbsentOrEmptyBuffer : Obligations.VdecAbsentOrEmptyBuffer := fun _ _ _ h =>
  exec_vdec_of_error (State.lenOutOfRange_of_absent h) (vdecResult_absent h)

/-! ### The single-byte form (40_varint_decode.md R102) -/

theorem Walk.start_take_acc (offset : Word) (b : Byte) : ((Walk.start offset).take b).acc = digitOf b := by
  simp [Walk.take, Walk.start]

/-- Settles O30: the one byte is the whole buffer exactly when LEN is not above 1. -/
theorem vdecSingleByteForm : Obligations.VdecSingleByteForm := by
  intro strict s b hlen hi hb hlast
  have hpre := State.lenOutOfRange_eq_false hlen true
  have hres := vdecResult_of_single hi hb hlast
  refine ⟨fun h1 => exec_vdec_of_value hpre ?_, fun h1 => exec_vdec_of_error (r := .fastPathTrailing) hpre ?_⟩
  · rw [hres, if_neg (by simp [h1]), Walk.start_take_acc]
    rfl
  · rw [hres, if_pos (by simpa [BitVec.lt_def] using h1)]

/-! ### After a run of bytes with bit 7 = 1 (40_varint_decode.md R103 to R106) -/

section Run

variable {s : State} {more : List Byte} (hm : ∀ b ∈ more, b.getLsbD 7 = true)

include hm

/-- VDEC's result over one to four first bytes that all have bit 7 = 1: the loop with the rest of the four to read. -/
theorem vdecResult_of_more_bytes {left : Nat} (hleft : left + more.length = Config.maxVarintBytes)
    (hne : more ≠ []) (hh : s.Holds s.offset.toNat more) (hl : s.offset.toNat + more.length ≤ s.len.toNat) :
    ∃ w, w.i.toNat = s.offset.toNat + more.length ∧ w.k = more.length ∧ w.acc.toNat = varintValue more ∧
      vdecResult s true = readDigits s left w := by
  obtain ⟨b, bs, rfl⟩ := List.exists_cons_of_ne_nil hne
  have hbs : left + bs.length = 3 := Nat.succ.inj hleft
  obtain ⟨w, hi, hk, ha, -, hres⟩ := vdecResult_of_run s b bs left hbs hm hh hl
  exact ⟨w, hi, hk, ha, hres⟩

theorem vdecResult_of_buffer_end (hlt : more.length < Config.maxVarintBytes) (hne : more ≠ [])
    (hh : s.Holds s.offset.toNat more) (hl : s.offset.toNat + more.length = s.len.toNat) :
    vdecResult s true = .ok (.error .truncated) := by
  obtain ⟨left, hleft⟩ := Nat.exists_eq_add_of_lt hlt
  obtain ⟨w, hi, -, -, hres⟩ := vdecResult_of_more_bytes hm (left := left + 1) (by omega) hne hh hl.le
  rw [hres, readDigits_end (by rw [hi, hl])]

theorem vdecResult_of_four_bytes (h4 : more.length = Config.maxVarintBytes) (hh : s.Holds s.offset.toNat more)
    (hl : s.offset.toNat + more.length ≤ s.len.toNat) : vdecResult s true = .ok (.error .oversize) := by
  have hne : more ≠ [] := by rintro rfl; cases h4
  obtain ⟨w, -, -, -, hres⟩ := vdecResult_of_more_bytes hm (left := 0) (by omega) hne hh hl
  exact hres

/-- The terminating byte of a multi-byte varint adds the last digit, and must be the buffer's last byte. -/
theorem vdecResult_of_multi_byte {last : Byte} (hlast : last.getLsbD 7 = false)
    (hlt : more.length < Config.maxVarintBytes) (hne : more ≠ []) (hh : s.Holds s.offset.toNat (more ++ [last]))
    (hl : s.offset.toNat + more.length < s.len.toNat) :
    vdecResult s true =
      if s.offset.toNat + more.length + 1 = s.len.toNat then .ok (.ok (BitVec.ofNat 32 (varintValue (more ++ [last]))))
      else .ok (.error .trailingBytes) := by
  obtain ⟨hh, hend⟩ := State.holds_append.mp hh
  obtain ⟨left, hleft⟩ := Nat.exists_eq_add_of_lt hlt
  obtain ⟨w, hi, hk, ha, hres⟩ := vdecResult_of_more_bytes hm (left := left + 1) (by omega) hne hh hl.le
  have hread : s.buf.read w.i.toNat = some last := hi ▸ (State.holds_cons.mp hend).1
  have hacc : (w.take last).acc.toNat = varintValue (more ++ [last]) := by
    rw [Walk.take_acc_toNat last (hk ▸ hlt) (by rw [ha, hk]; exact varintValue_lt more), ha, hk, varintValue_append]
    rfl
  rw [hres, readDigits_last (hi ▸ hl) hread hlast, hi, ← hacc, BitVec.ofNat_toNat, BitVec.setWidth_eq]

end Run

/-- Settles O29: with no byte read OFFSET is outside the buffer, else the loop reaches its end. -/
theorem vdecTruncated : Obligations.VdecTruncated := by
  intro strict s more hz hlen hlt hm hh hnil hend
  refine exec_vdec_of_error (r := .truncated) (State.lenOutOfRange_eq_false hlen true) ?_
  by_cases hne : more = []
  · exact vdecResult_outside hz (hnil hne)
  · exact vdecResult_of_buffer_end hm hlt hne hh (hend hne)

/-- Settles O31: the exact consumption check after the terminating byte passes, or fails. -/
theorem vdecMultiByteForm : Obligations.VdecMultiByteForm := by
  intro strict s more last hlen h1 h3 hm hlast hh
  have hpre := State.lenOutOfRange_eq_false hlen true
  have hne : more ≠ [] := by rintro rfl; cases h1
  have hres := vdecResult_of_multi_byte hm hlast (Nat.lt_succ_of_le h3) hne hh
  refine ⟨fun hend => exec_vdec_of_value hpre ?_, fun hend => exec_vdec_of_error (r := .trailingBytes) hpre ?_⟩
  · rw [hres (by omega), if_pos hend]
  · rw [hres (by omega), if_neg hend.ne]

/-- Settles O32: no byte is left to read after the fourth. -/
theorem vdecOversize : Obligations.VdecOversize := by
  intro strict s more hlen h4 hm hh hl
  exact exec_vdec_of_error (State.lenOutOfRange_eq_false hlen true)
    (vdecResult_of_four_bytes hm h4 hh (h4.symm ▸ hl))

end Sys2Proof.Machine
end

section
/-! PROOFS. 41_string_decode.md R131 to R137: how SDEC ends on each form of buffer, and what it then reports
(O36 to O41). -/

namespace Sys2Proof.Machine

/-! ### The report of each end (60_exceptions.md R184) -/

theorem State.complete_sdecCompletion_error (s : State) (strict : Bool) (r : Reason) :
    s.complete (sdecCompletion strict (.error r)) = s.sdecError strict r.kind (stringSentinel r) r := by
  cases strict <;> rfl

theorem exec_sdec_of_error {strict present : Bool} {s : State} {r : Reason} (hl : s.lenOutOfRange present = false)
    (h : sdecResult s present = .ok (.error r)) :
    exec (.sdec strict present) s = .next (s.sdecError strict r.kind (stringSentinel r) r) :=
  (execSdec_of_result hl h).trans (by rw [State.complete_sdecCompletion_error])

theorem exec_sdec_of_length {strict present : Bool} {s : State} {n : BitVec 16} (hl : s.lenOutOfRange present = false)
    (h : sdecResult s present = .ok (.ok n)) :
    exec (.sdec strict present) s = .next (s.reported .none .none .none 0 n 2) :=
  execSdec_of_result hl h

/-- LEN enters SDEC by the pre-check and the result alone: the completion write leaves it as it is. -/
theorem exec_sdec_withLen {present : Bool} {s : State} {l : Word} (strict : Bool)
    (hpre : State.lenOutOfRange { s with len := l } present = s.lenOutOfRange present)
    (hres : sdecResult { s with len := l } present = sdecResult s present) :
    exec (.sdec strict present) s =
      mapNext (fun t => { t with len := s.len }) (exec (.sdec strict present) { s with len := l }) := by
  show execSdec strict present s = mapNext _ (execSdec strict present _)
  rw [execSdec, execSdec, hpre, hres]
  cases s.lenOutOfRange present with
  | true => rfl
  | false => cases sdecResult s present <;> rfl

/-! ### No byte to read (41_string_decode.md R131, R132) -/

theorem sdecResult_absent (s : State) : sdecResult s false = .ok (.error .absentBuffer) := if_pos rfl

theorem sdecResult_short {s : State} (h : s.len.toNat < 2) : sdecResult s true = .ok (.error .shortBuffer) := by
  rw [sdecResult, if_neg (by decide), if_pos h]

/-- Settles O37: SDEC ends before its first read. -/
theorem sdecShortBuffer : Obligations.SdecShortBuffer := fun _ _ h hlen =>
  exec_sdec_of_error (State.lenOutOfRange_eq_false hlen true) (sdecResult_short h)

/-- Settles O36: an absent buffer passes the pre-check with any LEN; a present one with LEN = 0 is a short one. -/
theorem sdecAbsentBuffer : Obligations.SdecAbsentBuffer := fun strict s =>
  ⟨exec_sdec_of_error rfl (sdecResult_absent s), fun h =>
    sdecShortBuffer strict s (by rw [h]; decide) (by rw [h]; exact Nat.zero_le _)⟩

/-! ### The length checks (41_string_decode.md R134, R135) -/

theorem sdecText_missing {s : State} {n : BitVec 16} (h : s.len.toNat < 2 + n.toNat) :
    sdecText s n = .ok (.error .truncated) := if_pos h

theorem sdecText_trailing {s : State} {n : BitVec 16} (hr : s.params.strTrailingReject = true)
    (h : 2 + n.toNat < s.len.toNat) : sdecText s n = .ok (.error .stringTrailing) := by
  rw [sdecText, if_neg (by omega), if_pos ⟨hr, h⟩]

section LengthChecksPassed

variable {s : State} {n : BitVec 16} (hle : 2 + n.toNat ≤ s.len.toNat)
  (hexact : s.params.strTrailingReject = true → s.len.toNat = 2 + n.toNat)
include hle hexact

/-- What is left once the length checks have passed, in which LEN no longer occurs. -/
theorem sdecText_of_length_checks :
    sdecText s n =
      if s.params.utf8Validate then
        (s.blockReadRun 2 n.toNat).map fun t => if wellFormedUtf8 t then .ok n else .error .badUtf8
      else .ok (.ok n) := by
  rw [sdecText, if_neg (by omega), if_neg fun ⟨hr, hlt⟩ => hlt.ne' (hexact hr)]
  cases s.blockReadRun 2 n.toNat with
  | error f => rfl
  | ok t => cases h : wellFormedUtf8 t <;> simp [Except.map, h]

/-- With UTF8_VALIDATE = 0 no string byte is read (41_string_decode.md R136, R137). -/
theorem sdecText_unchecked (hu : s.params.utf8Validate = false) : sdecText s n = .ok (.ok n) := by
  rw [sdecText_of_length_checks hle hexact, hu, if_neg (by decide)]

/-- With UTF8_VALIDATE = 1 the result is the check's answer on the string bytes (41_string_decode.md R136). -/
theorem sdecText_checked {text : List Byte} (hu : s.params.utf8Validate = true) (hlen : text.length = n.toNat)
    (hh : s.Holds 2 text) : sdecText s n = .ok (if wellFormedUtf8 text then .ok n else .error .badUtf8) := by
  rw [sdecText_of_length_checks hle hexact, hu, if_pos rfl, State.blockReadRun_ok.mpr ⟨hlen, hh⟩]
  rfl

end LengthChecksPassed

/-- Where trailing bytes are not rejected, every LEN that leaves room for the string gives the same result. -/
theorem sdecText_withLen {s : State} {n : BitVec 16} {l : Word} (hr : s.params.strTrailingReject = false)
    (hle : 2 + n.toNat ≤ s.len.toNat) (hl : 2 + n.toNat ≤ l.toNat) : sdecText { s with len := l } n = sdecText s n := by
  have hrun : State.blockReadRun { s with len := l } 2 n.toNat = s.blockReadRun 2 n.toNat :=
    State.blockReadRun_congr fun _ _ _ => rfl
  rw [sdecText_of_length_checks (s := { s with len := l }) hl (by simp [hr]), hrun,
    sdecText_of_length_checks hle (by simp [hr])]

/-! ### The ends after the length prefix (41_string_decode.md R133 to R137) -/

/-- Settles O38: the declared length passes the end of the buffer. -/
theorem sdecMissingBytes : Obligations.SdecMissingBytes := by
  intro strict s hi lo h2 hlen h0 h1 hlt
  rw [← declaredLength_toNat] at hlt
  exact exec_sdec_of_error (State.lenOutOfRange_eq_false hlen true)
    ((sdecResult_of_prefix h2 h0 h1).trans (sdecText_missing hlt))

/-- Where trailing bytes are not rejected, SDEC ends alike with every legal LEN that leaves room for the string. -/
theorem exec_sdec_withLen_of_room {s : State} {hi lo : Byte} {l : Word} (strict : Bool)
    (hr : s.params.strTrailingReject = false) (h0 : s.buf.read 0 = some hi) (h1 : s.buf.read 1 = some lo)
    (hle : 2 + (declaredLength hi lo).toNat ≤ s.len.toNat) (hlen : s.len.toNat ≤ s.params.bufSize)
    (hle' : 2 + (declaredLength hi lo).toNat ≤ l.toNat) (hlen' : l.toNat ≤ s.params.bufSize) :
    exec (.sdec strict true) s =
      mapNext (fun t => { t with len := s.len }) (exec (.sdec strict true) { s with len := l }) := by
  apply exec_sdec_withLen
  · rw [State.lenOutOfRange_eq_false hlen, State.lenOutOfRange_eq_false hlen']
  · rw [sdecResult_of_prefix (s := s) (by omega) h0 h1,
      sdecResult_of_prefix (s := { s with len := l }) (Nat.le_of_add_right_le hle') h0 h1, sdecText_withLen hr hle hle']

/-- Settles O39: trailing bytes fail the check, or 2 + n is one of the LEN that leave room for the string. -/
theorem sdecTrailingBytes : Obligations.SdecTrailingBytes := by
  intro strict s hi lo hlen h0 h1 hlt
  rw [← declaredLength_toNat] at hlt ⊢
  have hl : (BitVec.ofNat 32 (2 + (declaredLength hi lo).toNat)).toNat = 2 + (declaredLength hi lo).toNat :=
    Nat.mod_eq_of_lt (hlt.trans s.len.isLt)
  refine ⟨fun hr => exec_sdec_of_error (r := .stringTrailing) (State.lenOutOfRange_eq_false hlen true) ?_,
    fun hr => ?_⟩
  · rw [sdecResult_of_prefix (by omega) h0 h1, sdecText_trailing hr hlt]
  · exact exec_sdec_withLen_of_room strict hr h0 h1 hlt.le hlen hl.ge (hl.trans_le (hlt.le.trans hlen))

/-- Settles O40: the check refuses bytes that do not split into rows of the table. -/
theorem sdecBadUtf8 : Obligations.SdecBadUtf8 := by
  intro strict s hi lo text hlen h0 h1 htext hle hexact hh hu hsplit
  rw [← declaredLength_toNat] at htext
  refine exec_sdec_of_error (r := .badUtf8) (State.lenOutOfRange_eq_false hlen true) ?_
  rw [sdecResult_of_prefix (by omega) h0 h1, sdecText_checked (htext ▸ hle) (htext ▸ hexact) hu htext hh,
    if_neg (mt (utf8CheckIsTheTablesSplit text).mp hsplit)]

/-- Settles O41: after the length checks UTF8_VALIDATE is 0, or the check accepts the bytes. -/
theorem sdecSuccess : Obligations.SdecSuccess := by
  intro strict s hi lo hlen h0 h1 hle hexact htext
  rw [← declaredLength_toNat] at hle hexact htext ⊢
  rw [BitVec.ofNat_toNat, BitVec.setWidth_eq]
  refine exec_sdec_of_length (State.lenOutOfRange_eq_false hlen true) ?_
  rw [sdecResult_of_prefix (by omega) h0 h1]
  cases hu : s.params.utf8Validate with
  | false => exact sdecText_unchecked hle hexact hu
  | true =>
    obtain ⟨text, hn, hh, hsplit⟩ := htext hu
    rw [sdecText_checked hle hexact hu hn hh, if_pos ((utf8CheckIsTheTablesSplit text).mpr hsplit)]

end Sys2Proof.Machine
end

section
/-! PROOFS. 42_reference_encoders.md R160 to R163, R166: the bytes of EncVarint digit by digit, and what VDEC makes of
them (O53 to O56). -/

namespace Sys2Proof.Machine

/-! ### The recursion of EncVarint (42_reference_encoders.md R160) -/

/-- Base-128 induction, in the order in which EncVarint takes the digits of a value. -/
theorem digits_induction {motive : Nat → Prop} (last : ∀ v, v < 128 → motive v)
    (more : ∀ v, 128 ≤ v → motive (v / 128) → motive v) (v : Nat) : motive v := by
  induction v using Nat.strongRecOn with
  | ind v ih =>
    rcases Nat.lt_or_ge v 128 with h | h
    · exact last v h
    · exact more v h (ih (v / 128) (by omega))

/-- The fuel `varintSequence` allows is the number of base-128 digits. -/
theorem log2_div_seven (v : Nat) : v.log2 / 7 = Nat.log 128 v := by
  rw [Nat.log2_eq_log_two, ← Nat.log_pow_left]

theorem varintSequence_of_ne_zero {v : Nat} (h : v ≠ 0) :
    varintSequence v = varintDigits (Nat.log 128 v + 1) v := by
  rw [varintSequence, if_neg h, log2_div_seven]

theorem varintSequence_last {v : Nat} (h : v < 128) : varintSequence v = [v] := by
  by_cases h0 : v = 0
  · subst h0; rfl
  · rw [varintSequence_of_ne_zero h0, varintDigits, if_neg h0, if_neg (by omega), Nat.mod_eq_of_lt h]

theorem varintSequence_more {v : Nat} (h : 128 ≤ v) :
    varintSequence v = (v % 128 + 128) :: varintSequence (v / 128) := by
  have hbit : v % 128 ||| 0x80 = v % 128 + 128 := by
    rw [Nat.or_comm, Nat.add_comm]
    exact (Nat.two_pow_add_eq_or_of_lt (i := 7) (Nat.mod_lt v (by decide)) 1).symm
  rw [varintSequence_of_ne_zero (by omega), varintSequence_of_ne_zero (by omega),
    Nat.log_of_one_lt_of_le (by decide) h, varintDigits, if_neg (by omega), if_pos (by omega), hbit]

/-! ### The answer of EncVarint (42_reference_encoders.md R160, R161) -/

theorem encVarint_natCast (v : Nat) (strict : Bool) : encVarint (some (v : Int)) strict = .ok (varintSequence v) := rfl

theorem eq_varintSequence_of_encVarint {v : Nat} {strict : Bool} {seq : List Nat}
    (h : encVarint (some (v : Int)) strict = .ok seq) : seq = varintSequence v :=
  (Except.ok.inj h).symm

/-- Settles O53: a negative integer is a `negSucc`. -/
theorem encVarintAbsentAndNegative : Obligations.EncVarintAbsentAndNegative := by
  refine ⟨rfl, rfl, fun v hv => ?_, fun strict => encVarint_natCast 0 strict⟩
  cases v with
  | ofNat n => exact absurd hv (Int.not_lt.mpr n.cast_nonneg)
  | negSucc n => exact ⟨rfl, rfl⟩

/-! ### The canonical form (42_reference_encoders.md R160, 30_encoding.md R77) -/

theorem varintSequence_length (v : Nat) : (varintSequence v).length = Nat.log 128 v + 1 := by
  induction v using digits_induction with
  | last v h => rw [varintSequence_last h, Nat.log_of_lt h]; rfl
  | more v h ih => rw [varintSequence_more h, List.length_cons, ih, Nat.log_of_one_lt_of_le (by decide) h]

theorem lt_pow_varintSequence_length (v : Nat) : v < 128 ^ (varintSequence v).length := by
  rw [varintSequence_length]
  exact Nat.lt_pow_succ_log_self (by decide) v

theorem pow_varintSequence_length_le {v : Nat} (h : 2 ≤ (varintSequence v).length) :
    128 ^ ((varintSequence v).length - 1) ≤ v := by
  have h0 : v ≠ 0 := by rintro rfl; exact absurd h (by decide)
  rw [varintSequence_length]
  exact Nat.pow_log_le_self 128 h0

theorem varintSequence_getElem? (v : Nat) {j : Nat} (hj : j < (varintSequence v).length) :
    (varintSequence v)[j]? =
      some (v / 128 ^ j % 128 + if j + 1 < (varintSequence v).length then 128 else 0) := by
  induction v using digits_induction generalizing j with
  | last v h =>
    rw [varintSequence_last h] at hj ⊢
    obtain rfl : j = 0 := by simpa using hj
    simp [Nat.mod_eq_of_lt h]
  | more v h ih =>
    rw [varintSequence_more h] at hj ⊢
    cases j with
    | zero => simp [varintSequence_length]
    | succ j =>
      rw [List.getElem?_cons_succ, ih (by simpa using hj), Nat.div_div_eq_div_mul, ← Nat.pow_succ']
      simp

/-- The last byte holds the highest digit, which is not zero when the length is the least. -/
theorem varintSequence_getLast?_ne_zero {v : Nat} (h : 2 ≤ (varintSequence v).length) :
    (varintSequence v).getLast? ≠ some 0 := by
  have hlt := lt_pow_varintSequence_length v
  have hle := pow_varintSequence_length_le h
  have hdigit := varintSequence_getElem? v (j := (varintSequence v).length - 1) (by omega)
  generalize varintSequence v = seq at *
  obtain ⟨n, hn⟩ : ∃ n, seq.length = n + 1 := ⟨seq.length - 1, by omega⟩
  rw [hn, Nat.add_sub_cancel] at hle hdigit
  rw [hn, Nat.pow_succ] at hlt
  have hpos : 0 < v / 128 ^ n := Nat.div_pos hle (by positivity)
  have hsmall : v / 128 ^ n < 128 := Nat.div_lt_of_lt_mul hlt
  rw [List.getLast?_eq_getElem?, hn, Nat.add_sub_cancel, hdigit, Nat.mod_eq_of_lt hsmall]
  simpa using hpos.ne'

/-- Settles O54: the length is the number of base-128 digits. -/
theorem encVarintIsCanonical : Obligations.EncVarintIsCanonical := fun v strict =>
  ⟨varintSequence v, encVarint_natCast v strict, by rw [varintSequence_length]; exact Nat.le_add_left 1 _,
    lt_pow_varintSequence_length v,
    fun h => ⟨pow_varintSequence_length_le h, varintSequence_getLast?_ne_zero h⟩,
    fun _ hj => varintSequence_getElem? v hj⟩

/-! ### The packed bytes (42_reference_encoders.md R163) -/

theorem byte_getLsbD_seven {n : Nat} (h : n < 256) : (BitVec.ofNat 8 n).getLsbD 7 = decide (128 ≤ n) := by
  rw [← BitVec.msb_eq_getLsbD_last, BitVec.msb_eq_decide, byte_toNat h]

theorem pack_length (seq : List Nat) : (pack seq).length = seq.length := List.length_map _

theorem varintValue_pack (v : Nat) : varintValue (pack (varintSequence v)) = v := by
  induction v using digits_induction with
  | last v h =>
    rw [varintSequence_last h]
    show (BitVec.ofNat 8 v).toNat % 128 + 128 * 0 = v
    rw [byte_toNat (by omega)]
    omega
  | more v h ih =>
    rw [varintSequence_more h]
    show (BitVec.ofNat 8 (v % 128 + 128)).toNat % 128 + 128 * varintValue (pack (varintSequence (v / 128))) = v
    rw [ih, byte_toNat (by omega)]
    omega

/-- The packed encoding in the form VDEC's statements take it: bytes with bit 7 = 1 and a terminating one. -/
theorem pack_varintSequence_eq_append (v : Nat) :
    ∃ more last, pack (varintSequence v) = more ++ [last] ∧ (∀ b ∈ more, b.getLsbD 7 = true) ∧
      last.getLsbD 7 = false := by
  induction v using digits_induction with
  | last v h =>
    refine ⟨[], BitVec.ofNat 8 v, by rw [varintSequence_last h]; rfl, by simp, ?_⟩
    rw [byte_getLsbD_seven (by omega)]
    exact decide_eq_false (by omega)
  | more v h ih =>
    obtain ⟨more, last, he, hmore, hlast⟩ := ih
    refine ⟨BitVec.ofNat 8 (v % 128 + 128) :: more, last, ?_, List.forall_mem_cons.mpr ⟨?_, hmore⟩, hlast⟩
    · rw [varintSequence_more h, List.cons_append, ← he]
      rfl
    · rw [byte_getLsbD_seven (by omega)]
      exact decide_eq_true (by omega)

/-- What VDEC finds in BUF: bytes with bit 7 = 1, a terminating one, and together the digits of the value. -/
theorem pack_of_encVarint {v : Nat} {strict : Bool} {seq : List Nat} (h : encVarint (some (v : Int)) strict = .ok seq) :
    ∃ more last, pack seq = more ++ [last] ∧ (∀ b ∈ more, b.getLsbD 7 = true) ∧ last.getLsbD 7 = false ∧
      more.length = Nat.log 128 v ∧ varintValue (more ++ [last]) = v := by
  obtain rfl := eq_varintSequence_of_encVarint h
  obtain ⟨more, last, he, hmore, hlast⟩ := pack_varintSequence_eq_append v
  refine ⟨more, last, he, hmore, hlast, ?_, he ▸ varintValue_pack v⟩
  have hlen := congrArg List.length he
  rw [pack_length, varintSequence_length, List.length_append] at hlen
  exact (Nat.succ.inj hlen).symm

/-! ### VDEC of an encoding (42_reference_encoders.md R162, R166) -/

theorem log_lt_four_iff {v : Nat} : Nat.log 128 v < 4 ↔ v ≤ 268435455 :=
  ⟨fun h => Nat.le_of_lt_succ (Nat.lt_pow_of_log_lt (by decide) h),
    fun h => Nat.log_lt_of_lt_pow' (by decide) (Nat.lt_succ_of_le h)⟩

theorem digitOf_eq_varintValue (b : Byte) : digitOf b = BitVec.ofNat 32 (varintValue [b]) := by
  rw [show varintValue [b] = (digitOf b).toNat from (digitOf_toNat b).symm, BitVec.ofNat_toNat, BitVec.setWidth_eq]

/-- Settles O55: one byte takes the single-byte form, two to four the multi-byte form. -/
theorem vdecInvertsEncVarint : Obligations.VdecInvertsEncVarint := by
  intro v strict s seq hv henc hh hlen hoff hsize
  obtain ⟨more, last, he, hmore, hlast, hlog, rfl⟩ := pack_of_encVarint henc
  have hlt : more.length < 4 := hlog ▸ log_lt_four_iff.mpr hv
  have hoff0 : s.offset.toNat = 0 := by rw [hoff]; rfl
  rw [← hlen] at hsize
  rw [he, ← hoff0] at hh
  rw [he, List.length_append, List.length_singleton] at hlen
  cases more with
  | nil =>
    rw [List.nil_append, ← digitOf_eq_varintValue]
    exact (vdecSingleByteForm strict s last hsize (by omega) (State.holds_cons.mp hh).1 hlast).1
      (BitVec.eq_of_toNat_eq hlen)
  | cons b bs =>
    exact (vdecMultiByteForm strict s (b :: bs) last hsize (Nat.le_add_left 1 _) (Nat.le_of_lt_succ hlt) hmore hlast
      hh).1 (by omega)

/-- Settles O56: the first four of five or more bytes all have bit 7 = 1. -/
theorem vdecRejectsLongEncodings : Obligations.VdecRejectsLongEncodings := by
  intro v strict s seq hv henc hh hlen hoff hsize
  obtain ⟨more, last, he, hmore, -, hlog, -⟩ := pack_of_encVarint henc
  have hle : 4 ≤ more.length := hlog ▸ Nat.le_of_not_lt (mt log_lt_four_iff.mp (Nat.not_le.mpr hv))
  have hoff0 : s.offset.toNat = 0 := by rw [hoff]; rfl
  rw [← hlen] at hsize
  rw [he, ← hoff0, ← List.take_append_drop 4 more, List.append_assoc] at hh
  rw [he, List.length_append] at hlen
  exact vdecOversize strict s (more.take 4) hsize (List.length_take_of_le hle)
    (fun b hb => hmore b (List.mem_of_mem_take hb)) (State.holds_append.mp hh).1 (by omega)

end Sys2Proof.Machine
end

section
/-! PROOFS. 42_reference_encoders.md R164 to R167: the answer of EncString, and SDEC of an encoded text (O57, O58). -/

namespace Sys2Proof.Machine

/-! ### The answer of EncString -/

theorem encString_of_bytes {cs : List Nat} {u : List Byte} (h : utf8OfText cs = some u) (strict : Bool) :
    encString (some cs) strict = if 65535 < u.length then .error .stringTooLong else .ok (.bytes (stringField u)) := by
  rw [encString, h]
  rfl

theorem encString_of_no_bytes {cs : List Nat} (h : utf8OfText cs = none) (strict : Bool) :
    encString (some cs) strict = if strict then .error .invalidArgument else .ok .null := by
  rw [encString, h]

/-- Settles O57: EncString asks for a text, then for its bytes, then for their number. -/
theorem encStringSentinelsAndRefusal : Obligations.EncStringSentinelsAndRefusal :=
  ⟨fun _ _ strict hu hle => (encString_of_bytes hu strict).trans (if_neg (Nat.not_lt.mpr hle)),
    rfl, rfl,
    fun _ hn => ⟨encString_of_no_bytes hn true, encString_of_no_bytes hn false⟩,
    fun _ _ strict hu hlt => (encString_of_bytes hu strict).trans (if_pos hlt)⟩

theorem encString_eq_bytes {cs : List Nat} {u field : List Byte} {strict : Bool} (hu : utf8OfText cs = some u)
    (h : encString (some cs) strict = .ok (.bytes field)) : u.length ≤ 65535 ∧ field = stringField u := by
  rw [encString_of_bytes hu] at h
  split at h
  · cases h
  · next hle =>
    cases h
    exact ⟨Nat.not_lt.mp hle, rfl⟩

/-! ### SDEC of an encoded text (42_reference_encoders.md R166) -/

theorem stringField_length (u : List Byte) : (stringField u).length = 2 + u.length := Nat.add_comm u.length 2

/-- The two length bytes hold every length of at most 65535, high byte first. -/
theorem lengthBytes_value {n : Nat} (h : n ≤ 65535) :
    (BitVec.ofNat 8 (n / 256)).toNat * 256 + (BitVec.ofNat 8 (n % 256)).toNat = n := by
  rw [byte_toNat (by omega), byte_toNat (Nat.mod_lt n (by decide))]
  omega

theorem State.holds_stringField {s : State} {u : List Byte} (h : s.Holds 0 (stringField u)) :
    s.buf.read 0 = some (BitVec.ofNat 8 (u.length / 256)) ∧ s.buf.read 1 = some (BitVec.ofNat 8 (u.length % 256)) ∧
      s.Holds 2 u := by
  obtain ⟨h0, hrest⟩ := State.holds_cons.mp h
  exact ⟨h0, State.holds_cons.mp hrest⟩

/-- Settles O58: the declared length is the number of the text's bytes, which fill the buffer and pass the check. -/
theorem sdecInvertsEncString : Obligations.SdecInvertsEncString := by
  intro cs u field strict s hu henc hh hlen hsize
  obtain ⟨hle, rfl⟩ := encString_eq_bytes hu henc
  obtain ⟨h0, h1, htext⟩ := State.holds_stringField hh
  have hn := lengthBytes_value hle
  rw [← hlen] at hsize
  rw [stringField_length] at hlen
  have hres := sdecSuccess strict s _ _ hsize h0 h1 (by omega) (fun _ => by omega)
    (fun _ => ⟨u, hn.symm, htext, splitsIntoRows_of_text hu⟩)
  rw [hn] at hres
  exact ⟨hle, htext, hres⟩

end Sys2Proof.Machine
end

section
/-! PROOFS. 60_exceptions.md R183 to R188: the pre-checks, what a completion leaves alone, how the report depends on the
mode, and that no earlier report enters it (O24, O25, O26, O45, O46, O47). -/

namespace Sys2Proof.Machine

/-! ### The pre-checks (60_exceptions.md R183) -/

theorem State.lenOutOfRange_of_lt {s : State} (h : s.params.bufSize < s.len.toNat) : s.lenOutOfRange true = true := by
  simpa [State.lenOutOfRange] using h

theorem exec_reserved {i : Instr} {strict present : Bool} (hi : i = .rsv2 strict present ∨ i = .rsv3 strict present)
    (s : State) : exec i s = .next (s.reported .invalidArgument .none .reservedOp 0 0 0) := by
  rcases hi with rfl | rfl
  · exact execRsv2_eq strict present s
  · exact execRsv3_eq strict present s

theorem exec_vdec_of_lenOutOfRange {present : Bool} {s : State} (strict : Bool) (h : s.lenOutOfRange present = true) :
    exec (.vdec strict present) s = .next (s.reported .invalidArgument .none .lenRange 0 0 0) := if_pos h

theorem exec_sdec_of_lenOutOfRange {present : Bool} {s : State} (strict : Bool) (h : s.lenOutOfRange present = true) :
    exec (.sdec strict present) s = .next (s.reported .invalidArgument .none .lenRange 0 0 0) := if_pos h

/-- Settles O25: neither the mode nor the buffer enters a reserved operation's completion. -/
theorem reservedOperationsComplete : Obligations.ReservedOperationsComplete := fun _ _ s =>
  ⟨exec_reserved (.inl rfl) s, exec_reserved (.inr rfl) s⟩

/-- Settles O26: the pre-check fails before the decode. -/
theorem lenRangeIsReportedInEitherMode : Obligations.LenRangeIsReportedInEitherMode := fun strict _ h =>
  ⟨exec_vdec_of_lenOutOfRange strict (State.lenOutOfRange_of_lt h),
    exec_sdec_of_lenOutOfRange strict (State.lenOutOfRange_of_lt h)⟩

section CompletionStep

variable {s : State} {ts : List Turn} (ht : s.turns = .block :: ts) (hb : s.status.busy = true)
include ht hb

/-- The completion step runs the command CTRL holds, on the state with the turn taken off. -/
theorem step_completion : step s = exec (decodeWord s.latchedCommand) (s.setTurns ts) :=
  (step_block ht).trans (blockTurn_busy hb)

theorem step_completion_vdec (hop : s.ctrl.op = 0b00) :
    step s = exec (.vdec s.ctrl.strict s.ctrl.present) (s.setTurns ts) := by
  rw [step_completion ht hb, s.decode_latchedCommand, hop]
  rfl

theorem step_completion_sdec (hop : s.ctrl.op = 0b01) :
    step s = exec (.sdec s.ctrl.strict s.ctrl.present) (s.setTurns ts) := by
  rw [step_completion ht hb, s.decode_latchedCommand, hop]
  rfl

theorem step_completion_reserved (hop : s.ctrl.op = 0b10 ∨ s.ctrl.op = 0b11) :
    step s = .next ((s.setTurns ts).reported .invalidArgument .none .reservedOp 0 0 0) := by
  rw [step_completion ht hb, s.decode_latchedCommand]
  rcases hop with hop | hop <;> rw [hop]
  · exact exec_reserved (.inl rfl) _
  · exact exec_reserved (.inr rfl) _

end CompletionStep

/-- Settles O24: OP selects the command, and a decode makes the LEN_RANGE check before anything else. -/
theorem preChecksComeFirst : Obligations.PreChecksComeFirst := by
  intro s ts ht hb
  refine ⟨step_completion_reserved ht hb, fun hop hp hlen => ?_, fun _ =>
    ⟨step_completion_vdec ht hb, step_completion_sdec ht hb⟩⟩
  have hpre : (s.setTurns ts).lenOutOfRange s.ctrl.present = true := hp ▸ State.lenOutOfRange_of_lt hlen
  rcases hop with hop | hop
  · exact (step_completion_vdec ht hb hop).trans (exec_vdec_of_lenOutOfRange _ hpre)
  · exact (step_completion_sdec ht hb hop).trans (exec_sdec_of_lenOutOfRange _ hpre)

/-! ### The inputs (60_exceptions.md R184, R187) -/

/-- Settles O45: the outcome is one completion write, which touches no other field. -/
theorem operationsKeepTheirInputs : Obligations.OperationsKeepTheirInputs := by
  intro i s t hg h
  obtain ⟨c, rfl⟩ := exec_go_next hg h
  exact ⟨rfl, rfl, rfl, fun _ => rfl⟩

/-! ### The two modes (60_exceptions.md R184, R185) -/

/-- How the strict and the lenient completion of one decode go together: they are the same one, a success or the failed
LEN_RANGE check, or they report a reason of the decode's own, strict by its kind, lenient by a sentinel. -/
inductive Completion.ModePair : Completion → Completion → Prop
  | same {c : Completion} (reason : c.reason = .none ∨ c.reason = .lenRange) (err : c.err = c.reason.kind)
      (sent : c.sent = .none) : ModePair c c
  | raised {r : Reason} {sent : Sentinel} {value : Word} (hnone : r ≠ .none) (hlen : r ≠ .lenRange)
      (hsent : sent ≠ .none) : ModePair (raiseStrict r) ⟨.none, sent, r, value, 0, 0⟩

theorem stringSentinel_ne_none (r : Reason) : stringSentinel r ≠ .none := by cases r <;> decide

theorem vdecCompletion_modePair {r : Except Reason Word} (h : VdecResultLegal r) :
    (vdecCompletion true r).ModePair (vdecCompletion false r) := by
  cases r with
  | ok v => exact .same (.inl rfl) rfl rfl
  | error r => exact .raised (by rintro rfl; cases h) (by rintro rfl; cases h) (by decide)

theorem sdecCompletion_modePair {r : Except Reason (BitVec 16)} (h : SdecResultLegal r) :
    (sdecCompletion true r).ModePair (sdecCompletion false r) := by
  cases r with
  | ok n => exact .same (.inl rfl) rfl rfl
  | error r => exact .raised (by rintro rfl; cases h) (by rintro rfl; cases h) (stringSentinel_ne_none r)

/-- The failed LEN_RANGE check completes alike in both modes (60_exceptions.md R183). -/
theorem failPre_lenRange_modePair : (failPre .lenRange).ModePair (failPre .lenRange) := .same (.inr rfl) rfl rfl

/-- The pre-check and the decode's result do not depend on the mode, so both modes complete from the same end. -/
theorem exec_vdec_modes {present : Bool} {s t u : State} (ht : exec (.vdec true present) s = .next t)
    (hu : exec (.vdec false present) s = .next u) : ∃ c d, c.ModePair d ∧ t = s.complete c ∧ u = s.complete d := by
  change execVdec true present s = .next t at ht
  change execVdec false present s = .next u at hu
  rcases execVdec_cases true present s with ⟨hl, e⟩ | ⟨hl, ⟨f, -, e⟩ | ⟨r, hr, e⟩⟩ <;> rw [e] at ht <;> cases ht
  · rw [execVdec, if_pos hl] at hu
    cases hu
    exact ⟨_, _, failPre_lenRange_modePair, rfl, rfl⟩
  · rw [execVdec_of_result hl hr] at hu
    cases hu
    exact ⟨_, _, vdecCompletion_modePair (vdecResult_legal hr), rfl, rfl⟩

theorem exec_sdec_modes {present : Bool} {s t u : State} (ht : exec (.sdec true present) s = .next t)
    (hu : exec (.sdec false present) s = .next u) : ∃ c d, c.ModePair d ∧ t = s.complete c ∧ u = s.complete d := by
  change execSdec true present s = .next t at ht
  change execSdec false present s = .next u at hu
  rcases execSdec_cases true present s with ⟨hl, e⟩ | ⟨hl, ⟨f, -, e⟩ | ⟨r, hr, e⟩⟩ <;> rw [e] at ht <;> cases ht
  · rw [execSdec, if_pos hl] at hu
    cases hu
    exact ⟨_, _, failPre_lenRange_modePair, rfl, rfl⟩
  · rw [execSdec_of_result hl hr] at hu
    cases hu
    exact ⟨_, _, sdecCompletion_modePair (sdecResult_legal hr), rfl, rfl⟩

/-- Settles O46: a pair of completions is one completion, or an error's strict and lenient report. -/
theorem strictAndLenientDifferInTheReport : Obligations.StrictAndLenientDifferInTheReport := by
  intro present s t u h
  obtain ⟨c, d, hpair, rfl, rfl⟩ : ∃ c d, c.ModePair d ∧ t = s.complete c ∧ u = s.complete d :=
    h.elim (fun h => exec_vdec_modes h.1 h.2) fun h => exec_sdec_modes h.1 h.2
  cases hpair with
  | same hreason herr hsent =>
    exact ⟨rfl, rfl, herr, hsent, fun _ => rfl, fun hne hlen => (hreason.elim hne hlen).elim⟩
  | raised hnone hlen hsent =>
    exact ⟨rfl, rfl, rfl, rfl, fun h => (h.elim hnone hlen).elim, fun _ _ => ⟨rfl, hsent⟩⟩

/-! ### Earlier reports (60_exceptions.md R188) -/

/-- Another report, and another internal state, in place of what an earlier operation left. -/
def State.withReport (s : State) (status : Status) (value : Word) (slen : BitVec 16) (soff : Word)
    (walk : Option Walk) : State :=
  { s with status := status, value := value, slen := slen, soff := soff, walk := walk }

section EarlierReport

variable (s : State) (status : Status) (value : Word) (slen : BitVec 16) (soff : Word) (walk : Option Walk)

theorem State.lenOutOfRange_withReport (present : Bool) :
    (s.withReport status value slen soff walk).lenOutOfRange present = s.lenOutOfRange present := rfl

/-- The completion write overwrites the whole earlier report. -/
theorem State.complete_withReport (c : Completion) :
    (s.withReport status value slen soff walk).complete c = s.complete c := rfl

theorem execVdec_withReport (strict present : Bool) :
    execVdec strict present (s.withReport status value slen soff walk) = execVdec strict present s := by
  have hres : vdecResult (s.withReport status value slen soff walk) present = vdecResult s present :=
    vdecResult_congr rfl rfl (fun _ _ _ _ => rfl) present
  simp only [execVdec, hres, State.lenOutOfRange_withReport, State.complete_withReport]

theorem execSdec_withReport (strict present : Bool) :
    execSdec strict present (s.withReport status value slen soff walk) = execSdec strict present s := by
  have hres : sdecResult (s.withReport status value slen soff walk) present = sdecResult s present :=
    sdecResult_congr (s := s) (t := s.withReport status value slen soff walk) rfl rfl (fun _ _ _ => rfl) present
  simp only [execSdec, hres, State.lenOutOfRange_withReport, State.complete_withReport]

end EarlierReport

/-- Settles O47: a decode reads no part of an earlier report, and the completion write overwrites all of it. -/
theorem earlierReportsDoNotMatter : Obligations.EarlierReportsDoNotMatter := by
  intro i s status value slen soff walk hg
  cases i with
  | vdec strict present => exact execVdec_withReport s status value slen soff walk strict present
  | sdec strict present => exact execSdec_withReport s status value slen soff walk strict present
  | rsv2 strict present => exact (execRsv2_eq strict present _).trans (execRsv2_eq strict present s).symm
  | rsv3 strict present => exact (execRsv3_eq strict present _).trans (execRsv3_eq strict present s).symm
  | setcfg op strict present => cases hg

end Sys2Proof.Machine
end

section
/-! PROOFS. 70_reset_and_hazards.md R201, R202: the bytes at which VDEC and SDEC stop the run, and that both complete
when the bytes they may read are written (O34, O42, O59). -/

namespace Sys2Proof.Machine

/-! ### The faults of a decode -/

theorem State.lenOutOfRange_true_eq_false_iff {s : State} :
    s.lenOutOfRange true = false ↔ s.len.toNat ≤ s.params.bufSize := by
  simp [State.lenOutOfRange]

/-- VDEC stops the run only in the decode itself, past the pre-check. -/
theorem exec_vdec_eq_fault_iff {strict present : Bool} {s : State} {f : Fault} :
    exec (.vdec strict present) s = .fault f ↔
      s.lenOutOfRange present = false ∧ vdecResult s present = .error f := by
  show execVdec strict present s = .fault f ↔ _
  rcases execVdec_cases strict present s with ⟨hl, e⟩ | ⟨hl, ⟨g, hg, e⟩ | ⟨r, hr, e⟩⟩
  · simp [e, hl]
  · simp [e, hl, hg]
  · simp [e, hr]

/-- SDEC stops the run only in the decode itself, past the pre-check. -/
theorem exec_sdec_eq_fault_iff {strict present : Bool} {s : State} {f : Fault} :
    exec (.sdec strict present) s = .fault f ↔
      s.lenOutOfRange present = false ∧ sdecResult s present = .error f := by
  show execSdec strict present s = .fault f ↔ _
  rcases execSdec_cases strict present s with ⟨hl, e⟩ | ⟨hl, ⟨g, hg, e⟩ | ⟨r, hr, e⟩⟩
  · simp [e, hl]
  · simp [e, hl, hg]
  · simp [e, hr]

/-! ### Where the digit loop stops (40_varint_decode.md R100) -/

/-- From index `i` on come fewer than `left` bytes with bit 7 = 1, and the index after them is below LEN and holds no
value: the fault `f` of a loop that may read `left` bytes. -/
def State.StopsAfterRun (s : State) (i left : Nat) (f : Fault) : Prop :=
  ∃ more : List Byte, more.length < left ∧ i + more.length < s.len.toNat ∧ (∀ b ∈ more, b.getLsbD 7 = true) ∧
    s.Holds i more ∧ s.buf.read (i + more.length) = none ∧ f = .blockReadUnwritten (i + more.length)

theorem State.not_stopsAfterRun_zero {s : State} {i : Nat} {f : Fault} : ¬s.StopsAfterRun i 0 f :=
  fun ⟨_, hlt, _⟩ => Nat.not_lt_zero _ hlt

/-- The stop one byte at a time: at this index, or after a byte with bit 7 = 1. -/
theorem State.stopsAfterRun_succ_iff {s : State} {i left : Nat} {f : Fault} :
    s.StopsAfterRun i (left + 1) f ↔
      i < s.len.toNat ∧
        (s.buf.read i = none ∧ f = .blockReadUnwritten i ∨
          ∃ b, s.buf.read i = some b ∧ b.getLsbD 7 = true ∧ s.StopsAfterRun (i + 1) left f) := by
  constructor
  · rintro ⟨more, hlt, hlen, hm, hh, hn, rfl⟩
    cases more with
    | nil => exact ⟨hlen, .inl ⟨hn, rfl⟩⟩
    | cons b bs =>
      obtain ⟨hb, hbs⟩ := State.holds_cons.mp hh
      obtain ⟨hbit, hm⟩ := List.forall_mem_cons.mp hm
      have e : i + (b :: bs).length = i + 1 + bs.length := by rw [List.length_cons]; omega
      rw [e] at hlen hn ⊢
      exact ⟨by omega, .inr ⟨b, hb, hbit, bs, Nat.lt_of_succ_lt_succ hlt, hlen, hm, hbs, hn, rfl⟩⟩
  · rintro ⟨hi, ⟨hn, rfl⟩ | ⟨b, hb, hbit, bs, hlt, hlen, hm, hbs, hn, rfl⟩⟩
    · exact ⟨[], Nat.succ_pos _, hi, by simp, s.holds_nil i, hn, rfl⟩
    · have e : i + 1 + bs.length = i + (b :: bs).length := by rw [List.length_cons]; omega
      rw [e] at hlen hn ⊢
      exact ⟨b :: bs, Nat.succ_lt_succ hlt, hlen, List.forall_mem_cons.mpr ⟨hbit, hm⟩, State.holds_cons.mpr ⟨hb, hbs⟩,
        hn, rfl⟩

theorem readDigits_eq_error_iff {s : State} {f : Fault} (left : Nat) (w : Walk) :
    readDigits s left w = .error f ↔ s.StopsAfterRun w.i.toNat left f := by
  induction left generalizing w with
  | zero => exact iff_of_false nofun State.not_stopsAfterRun_zero
  | succ left ih =>
    rw [State.stopsAfterRun_succ_iff]
    rcases readDigits_cases s left w with ⟨hi, e⟩ | ⟨hi, hn, e⟩ | ⟨b, hi, hb, hm, e⟩ | ⟨b, hi, hb, hm, e⟩
    · simp [e, hi]
    · simpa [e, hi, hn] using eq_comm
    · rw [e, ih, Walk.take_i_toNat hi]
      simp [-BitVec.getLsbD_eq_getElem, hi, hb, hm]
    · rw [e]
      split <;> simp [-BitVec.getLsbD_eq_getElem, hb, hm]

/-! ### Where VDEC stops -/

theorem vdecResult_unwritten {s : State} (hi : s.offset.toNat < s.len.toNat) (hn : s.buf.read s.offset.toNat = none) :
    vdecResult s true = .error (.blockReadUnwritten s.offset.toNat) := by
  have hz : s.len ≠ 0 := by rintro h; simp [h] at hi
  rw [vdecResult, if_neg (by simpa using hz), if_neg (by rw [BitVec.le_def]; omega), State.blockRead_error.mpr ⟨hn, rfl⟩]

/-- VDEC stops where a loop over all four bytes would: the single-byte form changes how it ends, not what it reads. -/
theorem vdecResult_eq_error_iff_readDigits {s : State} {f : Fault} :
    vdecResult s true = .error f ↔ readDigits s 4 (Walk.start s.offset) = .error f := by
  rcases readDigits_cases s 3 (Walk.start s.offset) with ⟨hi, e⟩ | ⟨hi, hn, e⟩ | ⟨b, hi, hb, hm, e⟩ | ⟨b, hi, hb, hm, e⟩ <;>
    rw [e]
  · by_cases hz : s.len = 0
    · simp [vdecResult_absent (.inr hz)]
    · simp [vdecResult_outside hz hi]
  · rw [vdecResult_unwritten hi hn]
    rfl
  · rw [vdecResult_of_more hi hb hm]
  · rw [vdecResult_of_single hi hb hm]
    split <;> split <;> simp

theorem vdecResult_eq_error_iff {s : State} {present : Bool} {f : Fault} :
    vdecResult s present = .error f ↔ present = true ∧ s.StopsAfterRun s.offset.toNat 4 f := by
  cases present with
  | false => simp [vdecResult_absent (.inl rfl)]
  | true =>
    rw [vdecResult_eq_error_iff_readDigits, readDigits_eq_error_iff, Walk.start, and_iff_right rfl]

/-- Settles O34: VDEC's faults are those of the loop over its four bytes, behind the pre-check. -/
theorem vdecStopsExactlyAtAnUnwrittenByte : Obligations.VdecStopsExactlyAtAnUnwrittenByte := by
  intro strict present s
  refine ⟨exec_not_refused _ s, fun f => ?_⟩
  show _ ↔ present = true ∧ s.len.toNat ≤ s.params.bufSize ∧ s.StopsAfterRun s.offset.toNat 4 f
  rw [exec_vdec_eq_fault_iff, vdecResult_eq_error_iff, and_left_comm]
  refine and_congr_right fun hp => ?_
  rw [hp, State.lenOutOfRange_true_eq_false_iff]

/-! ### Where SDEC stops (41_string_decode.md R130) -/

theorem sdecResult_unwritten_high {s : State} (hl : 2 ≤ s.len.toNat) (h0 : s.buf.read 0 = none) :
    sdecResult s true = .error (.blockReadUnwritten 0) := by
  rw [sdecResult, if_neg (by decide), if_neg (by omega), State.blockRead_error.mpr ⟨h0, rfl⟩]

theorem sdecResult_unwritten_low {s : State} {hi : Byte} (hl : 2 ≤ s.len.toNat) (h0 : s.buf.read 0 = some hi)
    (h1 : s.buf.read 1 = none) : sdecResult s true = .error (.blockReadUnwritten 1) := by
  rw [sdecResult, if_neg (by decide), if_neg (by omega), State.blockRead_ok.mpr h0, State.blockRead_error.mpr ⟨h1, rfl⟩]

/-- SDEC stops only at a byte of a present buffer that has room for the prefix. -/
theorem sdecResult_error_bounds {s : State} {present : Bool} {f : Fault} (h : sdecResult s present = .error f) :
    present = true ∧ 2 ≤ s.len.toNat := by
  cases present with
  | false => simp [sdecResult_absent] at h
  | true =>
    refine ⟨rfl, Nat.le_of_not_lt fun hlt => ?_⟩
    simp [sdecResult_short hlt] at h

/-- With room for the prefix SDEC stops at its first byte, at its second, or at a string byte the check reads. -/
theorem sdecResult_eq_error_iff {s : State} {f : Fault} (hl : 2 ≤ s.len.toNat) :
    sdecResult s true = .error f ↔
      (s.buf.read 0 = none ∧ f = .blockReadUnwritten 0) ∨
        ((s.buf.read 0).isSome = true ∧ s.buf.read 1 = none ∧ f = .blockReadUnwritten 1) ∨
        ∃ hi lo : Byte, s.buf.read 0 = some hi ∧ s.buf.read 1 = some lo ∧
          sdecText s (declaredLength hi lo) = .error f := by
  cases h0 : s.buf.read 0 with
  | none => simp [sdecResult_unwritten_high hl h0, eq_comm]
  | some hi =>
    cases h1 : s.buf.read 1 with
    | none => simp [sdecResult_unwritten_low hl h0 h1, eq_comm]
    | some lo => simp [sdecResult_of_prefix hl h0 h1]

/-- The stop at a string byte, in the numbers of the two length bytes. -/
theorem sdecText_declaredLength_eq_error_iff {s : State} {hi lo : Byte} {f : Fault} :
    sdecText s (declaredLength hi lo) = .error f ↔
      s.params.utf8Validate = true ∧ 2 + (hi.toNat * 256 + lo.toNat) ≤ s.len.toNat ∧
        (s.params.strTrailingReject = true → s.len.toNat = 2 + (hi.toNat * 256 + lo.toNat)) ∧
        ∃ j, j < hi.toNat * 256 + lo.toNat ∧ s.Written 2 (2 + j) ∧ s.buf.read (2 + j) = none ∧
          f = .blockReadUnwritten (2 + j) := by
  rw [sdecText_error, State.blockReadRun_error, declaredLength_toNat]
  tauto

/-- Settles O59: SDEC's faults are those of its prefix and of its string bytes, behind the pre-check. -/
theorem sdecStopsExactlyAtAnUnwrittenByte : Obligations.SdecStopsExactlyAtAnUnwrittenByte := by
  intro strict present s
  refine ⟨exec_not_refused _ s, fun f => ?_⟩
  simp only [← sdecText_declaredLength_eq_error_iff, exec_sdec_eq_fault_iff]
  constructor
  · rintro ⟨hpre, h⟩
    obtain ⟨rfl, hl⟩ := sdecResult_error_bounds h
    exact ⟨rfl, hl, State.lenOutOfRange_true_eq_false_iff.mp hpre, (sdecResult_eq_error_iff hl).mp h⟩
  · rintro ⟨rfl, hl, hsize, h⟩
    exact ⟨State.lenOutOfRange_true_eq_false_iff.mpr hsize, (sdecResult_eq_error_iff hl).mpr h⟩

/-! ### Completion on written bytes (70_reset_and_hazards.md R202) -/

/-- A written byte is none that stops a run. -/
theorem State.Written.read_ne_none {s : State} {lo hi j : Nat} (h : s.Written lo hi) (hlo : lo ≤ j) (hhi : j < hi) :
    s.buf.read j ≠ none := Option.isSome_iff_ne_none.mp (h j hhi hlo)

/-- A command with GO = 1 that does not stop the run completes, and keeps its inputs. -/
theorem exec_go_completes {i : Instr} {s : State} (hg : i.isGo = true) (h : ∀ f, exec i s ≠ .fault f) :
    ∃ t, exec i s = .next t ∧ t.status.busy = false ∧ t.status.done = true ∧
      t.ctrl = s.ctrl ∧ t.len = s.len ∧ t.offset = s.offset ∧ t.buf = s.buf ∧ t.params = s.params := by
  cases e : exec i s with
  | fault f => exact absurd e (h f)
  | refused r => exact absurd e (exec_not_refused i s r)
  | next t =>
    obtain ⟨c, rfl⟩ := exec_go_next hg e
    exact ⟨_, rfl, rfl, rfl, rfl, rfl, rfl, rfl, rfl⟩

theorem exec_vdec_no_fault {s : State} (h : s.VarintWritten) (strict present : Bool) (f : Fault) :
    exec (.vdec strict present) s ≠ .fault f := by
  intro e
  obtain ⟨-, -, more, h4, hlen, -, -, hn, -⟩ := ((vdecStopsExactlyAtAnUnwrittenByte strict present s).2 f).mp e
  exact State.Written.read_ne_none h (Nat.le_add_right _ _) (lt_min hlen (Nat.add_lt_add_left h4 _)) hn

theorem exec_sdec_no_fault {s : State} (h : s.BufferWritten) (strict present : Bool) (f : Fault) :
    exec (.sdec strict present) s ≠ .fault f := by
  have hread : ∀ j, j < s.len.toNat → s.buf.read j ≠ none := fun j hj => State.Written.read_ne_none h (Nat.zero_le j) hj
  intro e
  obtain ⟨-, hl, -, ⟨hn, -⟩ | ⟨-, hn, -⟩ | ⟨hi, lo, -, -, -, hle, -, j, hj, -, hn, -⟩⟩ :=
    ((sdecStopsExactlyAtAnUnwrittenByte strict present s).2 f).mp e
  · exact hread 0 (by omega) hn
  · exact hread 1 (by omega) hn
  · exact hread (2 + j) (by omega) hn

/-- Settles O42: a byte that would stop the decode is among those that are written. -/
theorem decodesCompleteOnWrittenBytes : Obligations.DecodesCompleteOnWrittenBytes := fun strict present _ =>
  ⟨fun h => exec_go_completes rfl (exec_vdec_no_fault h strict present),
    fun h => exec_go_completes rfl (exec_sdec_no_fault h strict present)⟩

end Sys2Proof.Machine
end

section
/-! PROOFS. 70_reset_and_hazards.md R201, R205, R209, R210: the host's writes while an operation goes on, its read of a
byte never written, and the order of the turns, by which every operation ends (O10, O17, O22, O23, O52). -/

namespace Sys2Proof.Machine

/-! ### The host's accesses (70_reset_and_hazards.md R201, R205) -/

/-- Settles O10: the register write and the byte write of a busy block leave it as it is. -/
theorem writesDuringAnOperationAreLost : Obligations.WritesDuringAnOperationAreLost := by
  rintro s op ops ts ht hp hb (⟨off, w, rfl⟩ | ⟨i, b, rfl⟩)
  · rw [step_wr ht hp, State.writeReg_busy off w (by exact hb)]
    rfl
  · rw [step_wb ht hp, State.hostWriteBuf_dropped b (.inl (by exact hb))]
    rfl

theorem State.hostReadBuf_unwritten {s : State} {i : Nat} (hi : i < s.params.bufSize) (h : s.buf.read i = none) :
    s.hostReadBuf i = .error (.hostReadUnwritten i) := by
  rw [State.hostReadBuf, if_pos hi, h]

/-- A byte read that gives no byte stops the run. -/
theorem State.hostNoteBuf_of_error {s : State} {i : Nat} {f : Fault} (h : s.hostReadBuf i = .error f) :
    s.hostNoteBuf i = .fault f := by
  rw [State.hostNoteBuf, h]

/-- Settles O17: the host's byte read has no byte to note. -/
theorem hostReadOfAnUnwrittenByteStops : Obligations.HostReadOfAnUnwrittenByteStops := by
  intro s i ops ts ht hp hi hn
  rw [step_hostAccess ht hp]
  exact State.hostNoteBuf_of_error (State.hostReadBuf_unwritten hi hn)

/-! ### No turn laid down (70_reset_and_hazards.md R209, R210) -/

theorem State.setTurns_nil_of_turns {s : State} (h : s.turns = []) : s.setTurns [] = s := by
  rw [← h, State.setTurns_turns_self]

/-- Settles O22: the turn taken off the list leaves the state that has none. -/
theorem withNoTurnLaidDownTheMachineMoves : Obligations.WithNoTurnLaidDownTheMachineMoves := by
  intro s h
  have hs : ∀ turns, State.setTurns { s with turns := turns } [] = s := fun _ => State.setTurns_nil_of_turns h
  refine ⟨fun hb => ?_, fun hb => ?_⟩
  · rw [step_nil h, if_pos hb, step_block rfl, hs]
  · rw [step_nil h, if_neg (by simp [hb]), step_host rfl, hs]

/-- Settles O23: it is the host's turn, and it has no transaction left. -/
theorem aFinishedRunStaysAsItIs : Obligations.AFinishedRunStaysAsItIs := by
  intro s ht hp hb
  rw [step_nil ht, if_neg (by simp [hb]), hostTurn_nil hp]

/-! ### Every operation ends (70_reset_and_hazards.md R209) -/

theorem hostTurn_not_refused (s : State) (r : Refusal) : hostTurn s ≠ .refused r := by
  cases hp : s.pending with
  | nil => simp [hostTurn_nil hp]
  | cons op ops =>
    rw [hostTurn_cons hp]
    cases op with
    | wr off w => nofun
    | rd off => nofun
    | wb i b => nofun
    | rb i =>
      show (s.setPending ops).hostNoteBuf i ≠ _
      unfold State.hostNoteBuf
      split <;> nofun
    | poll => nofun

theorem blockTurn_not_refused (s : State) (r : Refusal) : blockTurn s ≠ .refused r := by
  cases hb : s.status.busy with
  | false => simp [blockTurn_idle hb]
  | true => rw [blockTurn_busy hb]; exact exec_not_refused _ s r

/-- No step is refused. -/
theorem step_not_refused (s : State) (r : Refusal) : step s ≠ .refused r := by
  rcases step_turn s with ⟨ts, -, e⟩ | ⟨ts, -, e⟩ | ⟨ts, -, e⟩ <;> rw [e]
  · nofun
  · exact blockTurn_not_refused _ r
  · exact hostTurn_not_refused _ r

@[simp] theorem State.writeReg_turns (s : State) (off : RegOffset) (w : Word) : (s.writeReg off w).turns = s.turns := by
  rcases s.writeReg_cases off w with e | ⟨-, -, -, e⟩ | ⟨-, -, -, e⟩ | ⟨-, -, e⟩ | ⟨-, -, e⟩ <;> rw [e] <;> rfl

@[simp] theorem State.hostWriteBuf_turns (s : State) (i : Nat) (b : Byte) : (s.hostWriteBuf i b).turns = s.turns := by
  rcases s.hostWriteBuf_cases i b with ⟨-, e⟩ | ⟨-, -, e⟩ <;> rw [e]

/-- What the host does lays down no turn and takes none off. -/
theorem hostTurn_keeps_turns {s t : State} (h : hostTurn s = .next t) : t.turns = s.turns := by
  rcases hostTurn_next h with ⟨-, rfl⟩ | ⟨op, ops, -, ⟨off, w, -, rfl⟩ | ⟨i, b, -, rfl⟩ | ⟨r, rfl⟩ | ⟨r, rfl⟩⟩ <;> simp

/-- A step that leaves an operation in progress used up a turn of the host. -/
theorem step_turns_of_busy {s t : State} (hs : s.status.busy = true) (ht : t.status.busy = true)
    (h : step s = .next t) : s.turns = .host :: t.turns := by
  rcases step_turn s with ⟨ts, -, e⟩ | ⟨ts, -, e⟩ | ⟨ts, hts, e⟩ <;> rw [e] at h
  · cases h
    simp [Status.reset] at ht
  · have hidle := blockTurn_ends_operation (s := s.setTurns ts) hs h
    simp [hidle] at ht
  · rcases hts with hts | ⟨-, -, hidle⟩
    · rw [hts, hostTurn_keeps_turns h, State.setTurns_turns]
    · simp [hidle] at hs

/-- Settles O52: a step stops the run, ends the operation, or leaves one turn less, so by induction on their number. -/
theorem everyOperationEnds : Obligations.EveryOperationEnds := by
  intro s
  induction hn : s.turns.length using Nat.strongRecOn generalizing s with
  | ind n ih =>
    intro hs
    cases h : step s with
    | refused r => exact absurd h (step_not_refused s r)
    | fault f => exact ⟨1, by omega, .inl ⟨f, run_fault h⟩⟩
    | next t =>
      cases ht : t.status.busy with
      | false => exact ⟨1, by omega, .inr ⟨t, run_next h, ht⟩⟩
      | true =>
        have hlen : t.turns.length + 1 = n := by rw [← hn, step_turns_of_busy hs ht h, List.length_cons]
        obtain ⟨k, hk, hend⟩ := ih t.turns.length (by omega) t rfl ht
        exact ⟨k + 1, by omega, by rw [run_next h]; exact hend⟩

end Sys2Proof.Machine
end
